-- ==== Sys2Proof/Word.lean ====
section
/-! DEFINITION. The machine's word and its register names (R6, R8, R20, R22 of the spec). -/

namespace Sys2Proof

/-- A byte: the width of every register, memory cell, address and pointer (R6). BitVec addition,
subtraction and multiplication keep the low 8 bits, which is the truncation of R8. -/
abbrev Byte := BitVec 8

/-- The number of a general register, 0 to 7 (R20). -/
abbrev Reg := Fin 8

end Sys2Proof
end

