-- ==== Sys2Proof/Config.lean ====
section
/-! DEFINITION. The two open parameters a model takes as arguments (R7). They are plain data carried by
State and no step changes them (log entry 1), so every statement about all states holds for every choice. -/

namespace Sys2Proof

/-- `FETCH_PAST_IMAGE` (R7, R84): what a fetch of an instruction byte at or beyond the image length does. -/
inductive FetchPastImage where
  | fault     -- the fetch raises EndOfImage
  | execute   -- the byte is decoded as any other
  deriving DecidableEq, Repr

/-- The parameters of R7. -/
structure Config where
  /-- `RET_WRITES_REGISTER` (R166): RET has a register operand and also writes that register. -/
  retWritesRegister : Bool
  /-- `FETCH_PAST_IMAGE` (R84). -/
  fetchPastImage : FetchPastImage
  deriving DecidableEq, Repr

/-- The defaults of R7. -/
def Config.default : Config := { retWritesRegister := false, fetchPastImage := .fault }

end Sys2Proof
end

