-- ==== Sys2Proof/Syntax.lean ====
section
/-! DEFINITION. The instructions: one constructor per row of spec/opcode_table.json (R72). -/

namespace Sys2Proof

/-- An instruction with its operands. A register operand is a register number 0 to 7: a register operand
byte of 8 or more names no register and makes no instruction (R76). -/
inductive Instr where
  | ldi  (reg : Reg) (imm : Byte)   -- R100
  | prn  (reg : Reg)                -- R102
  | hlt                             -- R104
  | mul  (regA regB : Reg)          -- R120
  | add  (regA regB : Reg)          -- R123
  | cmp  (regA regB : Reg)          -- R126
  | push (reg : Reg)                -- R140
  | pop  (reg : Reg)                -- R142
  | call (reg : Reg)                -- R160
  /-- `none` is format N, the default (R163); `some r` is format R, read only under
  `RET_WRITES_REGISTER = true` (R70, R166). -/
  | ret  (operand : Option Reg)
  | jmp  (reg : Reg)                -- R168
  | jeq  (reg : Reg)                -- R170
  | jne  (reg : Reg)                -- R172
  deriving DecidableEq, Repr

end Sys2Proof
end

