-- ==== Sys2Proof/Machine/State.lean ====
section
/-! DEFINITION. The state of the core (R34), as plain data, and the state after construction (R240). -/

namespace Sys2Proof.Machine

/-- The run state (R29). -/
inductive RunState where
  | constructed
  | running
  | halted
  | faulted
  deriving DecidableEq, Repr

/-- The fault kinds of R201. `aluSelectorError` is listed for completeness and raised nowhere (R206). -/
inductive FaultKind where
  | unknownInstruction
  | invalidRegister
  | endOfImage
  | compatRetSP
  | aluSelectorError
  deriving DecidableEq, Repr

/-- The fault record (R31): the kind, the address of the faulting instruction's opcode byte, that byte when
it was fetched, and the offending operand byte or address when the kind has one (R201). -/
structure FaultRecord where
  kind   : FaultKind
  pc     : Byte
  opcode : Option Byte
  detail : Option Byte
  deriving DecidableEq, Repr

/-- The memory (R50): the cells that do not hold the reset value, by rising address. -/
abbrev Memory := List Host.Cell

/-- The architectural state: the rows of R34, then the two fields of the model's own. -/
structure State where
  /-- `x[0]` to `x[7]`; `x[7]` is SP (R20, R22). -/
  regs : Vector Byte 8
  /-- The program counter (R24). -/
  pc : Byte
  /-- The condition-flag register, `00000LGE` (R27). -/
  fl : Byte
  /-- `M[0..255]` (R50). -/
  mem : Memory
  /-- The run state (R29). -/
  runState : RunState
  /-- The fault record, empty but in Faulted (R31). -/
  faultRecord : Option FaultRecord
  /-- The image length `L`, 0 to 256 (R32). -/
  imageLen : Fin 257
  /-- The output sequence, oldest first (R33). -/
  out : List Byte
  /-- Whether a Load has been accepted: R244's "at most once" (log entry 3). -/
  loaded : Bool
  /-- The parameters of R7, which no step changes (log entry 1). -/
  config : Config
  deriving DecidableEq, Repr

/-- Why `step` stops: no instruction cycle is enabled (R83). `step` alone raises these; no instruction's
meaning does. All three are safe: the spec gives no next state there. The fatal faults of R201 are not
here: each is a next state, Faulted, with its record (R200). -/
inductive Fault where
  /-- Raised by `step` before Run: the host starts the run (R246). Safe. -/
  | noCycleConstructed
  /-- Raised by `step` after HLT: Halted is terminal (R83, R104). Safe. -/
  | noCycleHalted
  /-- Raised by `step` after a fault: Faulted is terminal (R83, R211). Safe. -/
  | noCycleFaulted
  deriving DecidableEq, Repr

/-- Why an instruction has no meaning. -/
inductive Refusal where
  /-- Raised by an arm of `exec` whose instruction has no meaning yet; no arm raises it now. Safe. -/
  | notModelled (mnemonic : String)
  deriving DecidableEq, Repr

/-- The state after construction (R240), with the default parameters (R7). -/
def State.reset : State where
  regs := #v[0, 0, 0, 0, 0, 0, 0, 0xF4]
  pc := 0
  fl := 0
  mem := []
  runState := .constructed
  faultRecord := none
  imageLen := 0
  out := []
  loaded := false
  config := .default

end Sys2Proof.Machine
end

