-- ==== Sys2Proof/Machine/Ops.lean ====
section
/-! DEFINITION. The named operations over registers and memory, and raising a fault. Every read and write of
a register or a memory cell goes through these. -/

namespace Sys2Proof.Machine

/-! ### Memory -/

/-- What an unlisted address reads as: the reset value of every cell (R51). -/
def Memory.unlisted : Byte := 0

/-- The canonical form: addresses strictly rising and inside the 256 cells of R50, and no cell that holds
what an unlisted address reads as. -/
abbrev Memory.wf (m : Memory) : Prop :=
  m.Pairwise (fun c d => c.1 < d.1) ∧ ∀ c ∈ m, c.1 < 256 ∧ c.2 ≠ Memory.unlisted

/-- `M[a]` (R52). -/
def Memory.read : Memory → Nat → Byte
  | [], _ => Memory.unlisted
  | c :: m, a => if c.1 = a then c.2 else Memory.read m a

/-- The memory without a cell for `a`. -/
def Memory.erase (m : Memory) (a : Nat) : Memory := m.filter (fun c => c.1 != a)

/-- A cell put before the first cell of a higher address. -/
def Memory.insert : Memory → Host.Cell → Memory
  | [], c => [c]
  | d :: m, c => if c.1 < d.1 then c :: d :: m else d :: Memory.insert m c

/-- `M[a] <- v` (R53), in canonical form. -/
def Memory.write (m : Memory) (a : Nat) (v : Byte) : Memory :=
  if v = Memory.unlisted then m.erase a else (m.erase a).insert (a, v)

/-- `MemRead(a, 1)` (R52). -/
def State.readMem (s : State) (a : Byte) : Byte := s.mem.read a.toNat

/-- `MemWrite(a, 1, v)` (R53). -/
def State.writeMem (s : State) (a v : Byte) : State := { s with mem := s.mem.write a.toNat v }

/-- Bytes written at `a`, `a +8 1`, and so on (R56). -/
def State.writeBytes (s : State) (a : Byte) : List Byte → State
  | [] => s
  | b :: bs => (s.writeMem a b).writeBytes (a + 1) bs

/-! ### Registers, program counter, flags, output, run state -/

/-- The number of SP (R22). -/
def spReg : Reg := 7

/-- `x[r]` (R20). -/
def State.readReg (s : State) (r : Reg) : Byte := s.regs[r.val]

/-- `x[r] <- v` (R20). -/
def State.writeReg (s : State) (r : Reg) (v : Byte) : State := { s with regs := s.regs.set r.val v }

/-- `SP`, shorthand for `x[7]` (R22). -/
def State.sp (s : State) : Byte := s.readReg spReg

/-- `pc <- target` (R24). -/
def State.setPc (s : State) (target : Byte) : State := { s with pc := target }

/-- `pc <- pc +8 n`: on to the next instruction after one of `n` bytes (R25). -/
def State.advance (s : State) (n : Nat) : State := s.setPc (s.pc + BitVec.ofNat 8 n)

/-- `FL <- v` (R27). -/
def State.setFl (s : State) (v : Byte) : State := { s with fl := v }

/-- `emit(v)`: append a value to the output sequence (R33). -/
def State.emit (s : State) (v : Byte) : State := { s with out := s.out ++ [v] }

/-- `state <- Halted` (R29, R104). -/
def State.halt (s : State) : State := { s with runState := .halted }

/-! ### The stack pointer -/

/-- The address of the next push: SP less one, wrapping 0x00 to 0xFF (R140). -/
def State.pushAddr (s : State) : Byte := s.sp - 1

/-- `x[7] <- x[7] -8 1` (R140, R160). -/
def State.decSp (s : State) : State := s.writeReg spReg s.pushAddr

/-- `x[7] <- x[7] +8 1`, wrapping 0xFF to 0x00 (R142, R163). -/
def State.incSp (s : State) : State := s.writeReg spReg (s.sp + 1)

/-! ### Raising a fault -/

/-- `raise Fault` (R200): the run ends in Faulted with the record, and nothing else is written. There is no
vector, no saved state and no return (R210, R211). -/
def State.raiseFault (s : State) (r : FaultRecord) : State :=
  { s with runState := .faulted, faultRecord := some r }

/-- The number R201 gives each fault kind. -/
def FaultKind.number : FaultKind → Nat
  | .unknownInstruction => 1
  | .invalidRegister => 2
  | .endOfImage => 3
  | .compatRetSP => 4
  | .aluSelectorError => 5

end Sys2Proof.Machine
end

