-- ==== Sys2Proof/Machine/Flags.lean ====
section
/-! DEFINITION. The condition-flag register and its one computation (R27, R28, R126). -/

namespace Sys2Proof.Machine

/-- `FL.E`, bit 0 (R27). -/
def State.flagE (s : State) : Bool := s.fl.getLsbD 0

/-- `FL.G`, bit 1 (R27). -/
def State.flagG (s : State) : Bool := s.fl.getLsbD 1

/-- `FL.L`, bit 2 (R27). -/
def State.flagL (s : State) : Bool := s.fl.getLsbD 2

/-- What CMP writes to FL: E, else L when `a` is below `b` unsigned, else G (R126, in the order of R127). -/
def compareFlags (a b : Byte) : Byte :=
  if a = b then 0b00000001
  else if a.toNat < b.toNat then 0b00000100
  else 0b00000010

end Sys2Proof.Machine
end

