-- ==== Sys2Proof/Machine/Operands.lean ====
section
/-! DEFINITION. The operand forms (R70, R75 to R77): where the operand bytes stand, the check on their
addresses, and what a register operand, an immediate and a jump target stand for. -/

namespace Sys2Proof.Machine

/-- The address of byte `k` of the instruction at `pc`, wrapping 255 to 0 (R25, R70). -/
def State.byteAddr (s : State) (k : Nat) : Byte := s.pc + BitVec.ofNat 8 k

/-- Byte `k` of the instruction at `pc`: `op_k` of R80 for `k` 1 and 2. -/
def State.instrByte (s : State) (k : Nat) : Byte := s.readMem (s.byteAddr k)

/-- The first `n` bytes from `pc`, by ascending address (R56). -/
def State.instrBytes (s : State) (n : Nat) : List Byte := (List.range n).map s.instrByte

/-- The end-of-image check of R84 fails at `a`: the parameter is `fault` and `a` is at or beyond `L`. -/
def State.pastImage (s : State) (a : Byte) : Bool :=
  decide (s.imageLen.val ≤ a.toNat) && s.config.fetchPastImage == .fault

/-- The first of the `n` operand addresses at which the check fails, operand 1 first (R80, R207). -/
def State.operandPastImage (s : State) (n : Nat) : Option Byte :=
  ((List.range n).map fun k => s.byteAddr (k + 1)).find? s.pastImage

/-- A register operand stands for the register's value (R76). -/
def State.regOperand (s : State) (r : Reg) : Byte := s.readReg r

/-- The immediate stands for itself: not extended, scaled or shifted (R75). -/
def immOperand (imm : Byte) : Byte := imm

/-- A jump or call target is a register's value: a full address, with no alignment (R26, R77). -/
def State.jumpTarget (s : State) (r : Reg) : Byte := s.readReg r

end Sys2Proof.Machine
end

