-- ==== Sys2Proof/Machine/Alu.lean ====
section
/-! DEFINITION. The ALU and MUL, ADD and CMP (spec/41_alu.md). -/

namespace Sys2Proof.Machine

/-- The low 8 bits of the product of two unsigned bytes (R120). -/
def aluMul (a b : Byte) : Byte := BitVec.ofNat 8 (a.toNat * b.toNat)

/-- The low 8 bits of the sum of two unsigned bytes; the carry is recorded nowhere (R123). -/
def aluAdd (a b : Byte) : Byte := BitVec.ofNat 8 (a.toNat + b.toNat)

/-- MUL `a`, `b` (R120). -/
def execMul (a b : Reg) (s : State) : Host.Outcome State Fault Refusal :=
  .next ((s.writeReg a (aluMul (s.regOperand a) (s.regOperand b))).advance 3)

/-- ADD `a`, `b` (R123). -/
def execAdd (a b : Reg) (s : State) : Host.Outcome State Fault Refusal :=
  .next ((s.writeReg a (aluAdd (s.regOperand a) (s.regOperand b))).advance 3)

/-- CMP `a`, `b` (R126). -/
def execCmp (a b : Reg) (s : State) : Host.Outcome State Fault Refusal :=
  .next ((s.setFl (compareFlags (s.regOperand a) (s.regOperand b))).advance 3)

end Sys2Proof.Machine
end

