-- ==== Sys2Proof/Machine/Control.lean ====
section
/-! DEFINITION. CALL, RET, JMP, JEQ and JNE (spec/43_control.md). The lines of a rule run in order (D10). -/

namespace Sys2Proof.Machine

/-- The return address CALL pushes: the byte after its one operand (R160). -/
def State.returnAddr (s : State) : Byte := s.pc + 2

/-- CALL `r` (R160): SP first, then the store of the return address, then the jump to `x[r]` as the
decrement left it. -/
def execCall (r : Reg) (s : State) : Host.Outcome State Fault Refusal :=
  .next ((s.decSp.writeMem s.pushAddr s.returnAddr).setPc (s.decSp.jumpTarget r))

/-- RET in format N (R163). -/
def State.popPc (s : State) : State := (s.setPc (s.readMem s.sp)).incSp

/-- RET in format R with an operand other than 7 (R166): the popped byte goes to `x[r]` too. -/
def State.popPcAndReg (s : State) (r : Reg) : State :=
  ((s.writeReg r (s.readMem s.sp)).setPc (s.readMem s.sp)).incSp

/-- RET: by its format, R163 or R166. Operand 7 raises CompatRetSP (R205). -/
def execRet (operand : Option Reg) (s : State) : Host.Outcome State Fault Refusal :=
  match operand with
  | none => .next s.popPc
  | some r =>
    if r = spReg then
      .next (s.raiseFault { kind := .compatRetSP, pc := s.pc, opcode := some 0x11, detail := some 7 })
    else .next (s.popPcAndReg r)

/-- JMP `r` (R168). -/
def execJmp (r : Reg) (s : State) : Host.Outcome State Fault Refusal :=
  .next (s.setPc (s.jumpTarget r))

/-- JEQ `r` (R170). -/
def execJeq (r : Reg) (s : State) : Host.Outcome State Fault Refusal :=
  .next (if s.flagE then s.setPc (s.jumpTarget r) else s.advance 2)

/-- JNE `r` (R172). -/
def execJne (r : Reg) (s : State) : Host.Outcome State Fault Refusal :=
  .next (if s.flagE then s.advance 2 else s.setPc (s.jumpTarget r))

end Sys2Proof.Machine
end

