-- ==== Sys2Proof/Machine/RegisterIo.lean ====
section
/-! DEFINITION. LDI, PRN and HLT (spec/40_register_io_halt.md). -/

namespace Sys2Proof.Machine

/-- LDI `r`, `imm` (R100). -/
def execLdi (r : Reg) (imm : Byte) (s : State) : Host.Outcome State Fault Refusal :=
  .next ((s.writeReg r (immOperand imm)).advance 3)

/-- PRN `r` (R102). -/
def execPrn (r : Reg) (s : State) : Host.Outcome State Fault Refusal :=
  .next ((s.emit (s.regOperand r)).advance 2)

/-- HLT (R104). -/
def execHlt (s : State) : Host.Outcome State Fault Refusal :=
  .next (s.advance 1).halt

end Sys2Proof.Machine
end

