-- ==== Sys2Proof/Machine/Stack.lean ====
section
/-! DEFINITION. PUSH and POP (spec/42_stack.md). The lines of a rule run in order and each reads what the
ones above it left (D10 of spec/92_eei_decisions.md). -/

namespace Sys2Proof.Machine

/-- PUSH `r` (R140): SP first, then the store of `x[r]` as the decrement left it. -/
def execPush (r : Reg) (s : State) : Host.Outcome State Fault Refusal :=
  .next ((s.decSp.writeMem s.pushAddr (s.decSp.regOperand r)).advance 2)

/-- POP `r` (R142): the load first, then SP as the load left it. -/
def execPop (r : Reg) (s : State) : Host.Outcome State Fault Refusal :=
  .next ((s.writeReg r (s.readMem s.sp)).incSp.advance 2)

end Sys2Proof.Machine
end

