-- ==== Sys2Proof/Machine/Dispatch.lean ====
section
/-! DEFINITION. The execute part of the instruction cycle (R80): one meaning per row of the opcode map. -/

namespace Sys2Proof.Machine

def exec (i : Instr) (s : State) : Host.Outcome State Fault Refusal :=
  match i with
  | .ldi r imm => Sys2Proof.Machine.execLdi r imm s
  | .prn r => Sys2Proof.Machine.execPrn r s
  | .hlt => Sys2Proof.Machine.execHlt s
  | .mul a b => Sys2Proof.Machine.execMul a b s
  | .add a b => Sys2Proof.Machine.execAdd a b s
  | .cmp a b => Sys2Proof.Machine.execCmp a b s
  | .push r => Sys2Proof.Machine.execPush r s
  | .pop r => Sys2Proof.Machine.execPop r s
  | .call r => Sys2Proof.Machine.execCall r s
  | .ret operand => Sys2Proof.Machine.execRet operand s
  | .jmp r => Sys2Proof.Machine.execJmp r s
  | .jeq r => Sys2Proof.Machine.execJeq r s
  | .jne r => Sys2Proof.Machine.execJne r s

end Sys2Proof.Machine
end

