-- ==== Sys2Proof/WellFormed.lean ====
section
/-! DEFINITION. Which instructions the decoder can read under a choice of the parameters. -/

namespace Sys2Proof

/-- An instruction is well formed when it has the format its opcode has under the parameters: RET has an
operand exactly under `RET_WRITES_REGISTER = true` (R70, R166). The types carry every other check. -/
def Instr.wellFormed (cfg : Config) : Instr → Bool
  | .ldi _ _ => true
  | .prn _ => true
  | .hlt => true
  | .mul _ _ => true
  | .add _ _ => true
  | .cmp _ _ => true
  | .push _ => true
  | .pop _ => true
  | .call _ => true
  | .ret operand => operand.isSome == cfg.retWritesRegister
  | .jmp _ => true
  | .jeq _ => true
  | .jne _ => true

end Sys2Proof
end

