-- ==== Sys2Proof/Decode.lean ====
section
/-! DEFINITION. The opcode map, the decoder and the encoder (R70 to R79, R90, R92). -/

namespace Sys2Proof

/-- The thirteen mnemonics of the opcode map (R72). -/
inductive Opcode where
  | ldi | prn | hlt | mul | add | cmp | push | pop | call | ret | jmp | jeq | jne
  deriving DecidableEq, Repr

/-- The formats of R70. -/
inductive Format where
  | n    -- the opcode byte alone
  | r    -- one register operand
  | ri   -- a register operand, then an immediate
  | rr   -- two register operands
  deriving DecidableEq, Repr

/-- The rows of the opcode map, in the table's order. -/
def Opcode.all : List Opcode :=
  [.ldi, .prn, .hlt, .mul, .add, .cmp, .push, .pop, .call, .ret, .jmp, .jeq, .jne]

/-- The opcode byte of a row, from the bits column of R72. -/
def Opcode.byte : Opcode → Byte
  | .ldi  => 0b10000010
  | .prn  => 0b01000111
  | .hlt  => 0b00000001
  | .mul  => 0b10100010
  | .add  => 0b10100000
  | .cmp  => 0b10100111
  | .push => 0b01000101
  | .pop  => 0b01000110
  | .call => 0b01010000
  | .ret  => 0b00010001
  | .jmp  => 0b01010100
  | .jeq  => 0b01010101
  | .jne  => 0b01010110

/-- The format of a row (R72). RET is format N, or format R under `RET_WRITES_REGISTER = true` (R70). -/
def Opcode.format (cfg : Config) : Opcode → Format
  | .ldi  => .ri
  | .prn  => .r
  | .hlt  => .n
  | .mul  => .rr
  | .add  => .rr
  | .cmp  => .rr
  | .push => .r
  | .pop  => .r
  | .call => .r
  | .ret  => if cfg.retWritesRegister then .r else .n
  | .jmp  => .r
  | .jeq  => .r
  | .jne  => .r

/-- How many operand bytes follow the opcode byte (R70). -/
def Format.operandCount : Format → Nat
  | .n  => 0
  | .r  => 1
  | .ri => 2
  | .rr => 2

/-- The operand count of a row, `n` of R80. -/
def Opcode.operandCount (cfg : Config) (o : Opcode) : Nat := (o.format cfg).operandCount

/-- The row whose byte is exactly `b`: the whole byte is compared with each row (R73). -/
def Opcode.ofByte? (b : Byte) : Option Opcode := Opcode.all.find? (fun o => o.byte == b)

/-- The register a register operand byte selects: 0 to 7 select one, 8 to 255 none (R76). -/
def regOfByte? (b : Byte) : Option Reg :=
  if h : b.toNat < 8 then some ⟨b.toNat, h⟩ else none

/-- The byte that selects a register. -/
def regByte (r : Reg) : Byte := BitVec.ofNat 8 r.val

/-- An opcode with its operand bytes: an instruction, or the first register operand byte that names no
register (R76, operand 1 before operand 2 by R207). -/
inductive Assembled where
  | instr (i : Instr)
  | badRegister (b : Byte)
  deriving DecidableEq, Repr

/-- A register operand that must name a register. -/
def withReg (b : Byte) (k : Reg → Assembled) : Assembled :=
  match regOfByte? b with
  | some r => k r
  | none => .badRegister b

/-- The instruction of a row with the operand bytes `op1` and `op2`; a byte the format lacks is not looked
at (R79). -/
def Opcode.assemble (cfg : Config) (op1 op2 : Byte) : Opcode → Assembled
  | .ldi  => withReg op1 fun r => .instr (.ldi r op2)
  | .prn  => withReg op1 fun r => .instr (.prn r)
  | .hlt  => .instr .hlt
  | .mul  => withReg op1 fun a => withReg op2 fun b => .instr (.mul a b)
  | .add  => withReg op1 fun a => withReg op2 fun b => .instr (.add a b)
  | .cmp  => withReg op1 fun a => withReg op2 fun b => .instr (.cmp a b)
  | .push => withReg op1 fun r => .instr (.push r)
  | .pop  => withReg op1 fun r => .instr (.pop r)
  | .call => withReg op1 fun r => .instr (.call r)
  | .ret  => if cfg.retWritesRegister then withReg op1 fun r => .instr (.ret (some r)) else .instr (.ret none)
  | .jmp  => withReg op1 fun r => .instr (.jmp r)
  | .jeq  => withReg op1 fun r => .instr (.jeq r)
  | .jne  => withReg op1 fun r => .instr (.jne r)

/-- Why bytes are no instruction. -/
inductive DecodeError where
  | truncated                       -- the bytes end before the instruction does
  | unknownInstruction (b : Byte)   -- an opcode byte outside R72 (R78)
  | invalidRegister (b : Byte)      -- a register operand byte of 8 or more (R76)
  deriving DecidableEq, Repr

/-- What a list of bytes starts with. -/
inductive Decoded where
  | instr (i : Instr) (rest : List Byte)
  | reject (e : DecodeError)
  deriving DecidableEq, Repr

/-- The decoder: total on any bytes, and rejecting by name. -/
def decode (cfg : Config) : List Byte → Decoded
  | [] => .reject .truncated
  | b :: ops =>
    match Opcode.ofByte? b with
    | none => .reject (.unknownInstruction b)
    | some o =>
      if ops.length < o.operandCount cfg then .reject .truncated
      else
        match o.assemble cfg (ops.getD 0 0) (ops.getD 1 0) with
        | .instr i => .instr i (ops.drop (o.operandCount cfg))
        | .badRegister v => .reject (.invalidRegister v)

/-- The row of an instruction. -/
def Instr.opcode : Instr → Opcode
  | .ldi _ _ => .ldi
  | .prn _ => .prn
  | .hlt => .hlt
  | .mul _ _ => .mul
  | .add _ _ => .add
  | .cmp _ _ => .cmp
  | .push _ => .push
  | .pop _ => .pop
  | .call _ => .call
  | .ret _ => .ret
  | .jmp _ => .jmp
  | .jeq _ => .jeq
  | .jne _ => .jne

/-- The operand bytes of an instruction, in the order of R70. -/
def Instr.operandBytes : Instr → List Byte
  | .ldi r imm => [regByte r, imm]
  | .prn r => [regByte r]
  | .hlt => []
  | .mul a b => [regByte a, regByte b]
  | .add a b => [regByte a, regByte b]
  | .cmp a b => [regByte a, regByte b]
  | .push r => [regByte r]
  | .pop r => [regByte r]
  | .call r => [regByte r]
  | .ret none => []
  | .ret (some r) => [regByte r]
  | .jmp r => [regByte r]
  | .jeq r => [regByte r]
  | .jne r => [regByte r]

/-- The encoder: the opcode byte, then the operand bytes (R70). -/
def encode (i : Instr) : List Byte := i.opcode.byte :: i.operandBytes

/-- The length of an instruction in bytes, 1 to 3 (R70). -/
def Instr.length (i : Instr) : Nat := 1 + i.operandBytes.length

/-- The spelling of a row's mnemonic (R72, R90). -/
def Opcode.mnemonic : Opcode → List Char
  | .ldi => ['L', 'D', 'I']
  | .prn => ['P', 'R', 'N']
  | .hlt => ['H', 'L', 'T']
  | .mul => ['M', 'U', 'L']
  | .add => ['A', 'D', 'D']
  | .cmp => ['C', 'M', 'P']
  | .push => ['P', 'U', 'S', 'H']
  | .pop => ['P', 'O', 'P']
  | .call => ['C', 'A', 'L', 'L']
  | .ret => ['R', 'E', 'T']
  | .jmp => ['J', 'M', 'P']
  | .jeq => ['J', 'E', 'Q']
  | .jne => ['J', 'N', 'E']

/-- The decimal spelling of a number. -/
def decimal (n : Nat) : List Char := Nat.toDigits 10 n

/-- The name of a register, `R0` to `R7` (R90). -/
def regName (r : Reg) : List Char := 'R' :: decimal r.val

/-- The operands as R90 writes them: registers by name, immediates in decimal. -/
def Instr.operandNames : Instr → List (List Char)
  | .ldi r imm => [regName r, decimal imm.toNat]
  | .prn r => [regName r]
  | .hlt => []
  | .mul a b => [regName a, regName b]
  | .add a b => [regName a, regName b]
  | .cmp a b => [regName a, regName b]
  | .push r => [regName r]
  | .pop r => [regName r]
  | .call r => [regName r]
  | .ret none => []
  | .ret (some r) => [regName r]
  | .jmp r => [regName r]
  | .jeq r => [regName r]
  | .jne r => [regName r]

/-- The assembly notation of an instruction (R90): the mnemonic, a space, the operands with commas between. -/
def Instr.assembly (i : Instr) : List Char :=
  match i.operandNames with
  | [] => i.opcode.mnemonic
  | names => i.opcode.mnemonic ++ [' '] ++ [','].intercalate names

/-- The longest instruction, in bytes (R70). -/
def maxLength : Nat := 3

/-- The bytes of an instruction whose bits are the low `nbits` of `w`, numbered as the opcode table numbers
them (byte `k` is bits `8k+7` to `8k`), with zeros up to the longest instruction. -/
def tableBytes (nbits w : Nat) : List Byte :=
  (List.range maxLength).map fun k => BitVec.ofNat 8 ((w % 2 ^ nbits) >>> (8 * k))

/-- The instruction the decoder reads from an instruction whose bits are `w`, under the default parameters
of R7. -/
def decodeTableWord (nbits w : Nat) : Option Instr :=
  match decode .default (tableBytes nbits w) with
  | .instr i _ => some i
  | .reject _ => none

end Sys2Proof
end

