-- ==== Sys2Proof/Machine/Fetch.lean ====
section
/-! DEFINITION. The fetch and decode part of the instruction cycle, with its checks in their order (R80, R207),
and the disassembler of R92. -/

namespace Sys2Proof.Machine

/-- What fetching and decoding at `pc` gives: an instruction to execute, or the record of the first check
that fails. -/
inductive Fetched where
  | instr (i : Instr)
  | raises (r : FaultRecord)
  deriving DecidableEq, Repr

/-- The operands of a known opcode: the end-of-image check on every operand address (R84), then the
register operands (R76). -/
def State.fetchOperands (s : State) (opc : Byte) (o : Opcode) : Fetched :=
  match s.operandPastImage (o.operandCount s.config) with
  | some a => .raises { kind := .endOfImage, pc := s.pc, opcode := some opc, detail := some a }
  | none =>
    match o.assemble s.config (s.instrByte 1) (s.instrByte 2) with
    | .instr i => .instr i
    | .badRegister v => .raises { kind := .invalidRegister, pc := s.pc, opcode := some opc, detail := some v }

/-- Fetch and decode at `pc`: the end-of-image check on the opcode address (R84), the opcode map (R78), then
the operands. -/
def State.fetch (s : State) : Fetched :=
  if s.pastImage s.pc then
    .raises { kind := .endOfImage, pc := s.pc, opcode := none, detail := some s.pc }
  else
    match Opcode.ofByte? (s.readMem s.pc) with
    | none =>
      .raises { kind := .unknownInstruction, pc := s.pc, opcode := some (s.readMem s.pc), detail := none }
    | some o => s.fetchOperands (s.readMem s.pc) o

/-- One line of a disassembly (R92): a row of the opcode map with the instruction's bytes, or a byte that
opens no instruction. -/
inductive DisasmLine where
  | row (o : Opcode) (bytes : List Byte)
  | unknown (b : Byte)
  deriving DecidableEq, Repr

/-- The disassembler at address `a` (R92): the opcode byte, the length from the table, that many bytes in
all, wrapping at 256. It checks no operand. -/
def State.disassembleAt (s : State) (a : Byte) : DisasmLine :=
  match Opcode.ofByte? (s.readMem a) with
  | none => .unknown (s.readMem a)
  | some o => .row o ((s.setPc a).instrBytes (1 + o.operandCount s.config))

/-- The least image length that covers `n` bytes from `a`: up to the last of them, or the whole memory when
they wrap past 255. -/
def imageCovering (a : Byte) (n : Nat) : Fin 257 := Fin.ofNat 257 (min 256 (a.toNat + n))

/-- A running state whose next instruction bytes are `bs`: the bytes at `pc`, an image that covers them, and
the run state Running with no fault. -/
def State.withFetchBytes (s : State) (bs : List Byte) : State :=
  { s.writeBytes s.pc bs with
    runState := .running
    faultRecord := none
    imageLen := max s.imageLen (imageCovering s.pc bs.length) }

end Sys2Proof.Machine
end

