-- ==== Sys2Proof/Machine/Step.lean ====
section
/-! DEFINITION. One step is one instruction cycle (R80, R81). -/

namespace Sys2Proof.Machine

/-- One instruction cycle, enabled only in Running (R80, R83): fetch and decode, then either raise the fault
of the first check that fails (R200) or execute the instruction. -/
def step (s : State) : Host.Outcome State Fault Refusal :=
  match s.runState with
  | .constructed => .fault .noCycleConstructed
  | .halted => .fault .noCycleHalted
  | .faulted => .fault .noCycleFaulted
  | .running =>
    match s.fetch with
    | .instr i => exec i s
    | .raises r => .next (s.raiseFault r)

/-- `s` made to run, as its next step, the instruction whose bits are the low `nbits` of `w`. It stands for
the host's Load and Run (R244, R246), which are the only way a program comes to run (log entry 2). -/
def State.withFetchWord (s : State) (nbits w : Nat) : State := s.withFetchBytes (tableBytes nbits w)

end Sys2Proof.Machine
end

