-- ==== Sys2Proof/Machine/HostSide.lean ====
section
/-! DEFINITION. The host's transactions with the core (R36, R250): Load, Run, the output's rendering and the
final read. Construct is State.reset. -/

namespace Sys2Proof.Machine

/-- Why a Load is not accepted (R244, R245). -/
inductive LoadError where
  | notSupplied      -- the collaborator could not supply the image
  | notConstructed   -- the core is not in state Constructed
  | alreadyLoaded    -- a Load was accepted before
  | imageTooLong     -- more than 256 bytes
  deriving DecidableEq, Repr

/-- What a Load answers: the loaded core, or an error, after which the core's state is the one it had. -/
inductive LoadResult where
  | ok (s : State)
  | error (e : LoadError)
  deriving DecidableEq, Repr

/-- `Load(bytes)` (R244): the image from address 0, and its length recorded in `L`. -/
def State.load (s : State) (bytes : List Byte) : LoadResult :=
  if s.runState ≠ .constructed then .error .notConstructed
  else if s.loaded then .error .alreadyLoaded
  else if h : bytes.length < 257 then
    .ok { s.writeBytes 0 bytes with imageLen := ⟨bytes.length, h⟩, loaded := true }
  else .error .imageTooLong

/-- Load from what the collaborator supplies, `none` when it has failed to supply an image (R245). -/
def State.loadSupplied (s : State) : Option (List Byte) → LoadResult
  | none => .error .notSupplied
  | some bytes => s.load bytes

/-- The start of `Run()`: Constructed to Running, and nothing in any other state (R246, R247). -/
def State.startRun (s : State) : State :=
  if s.runState = .constructed then { s with runState := .running } else s

/-- At most `n` instruction cycles, fewer when the run ends first (R246). A run without an end has no last
state; this is its state after `n` cycles (R83). -/
def State.cycles : Nat → State → State
  | 0, s => s
  | n + 1, s =>
    match step s with
    | .next t => t.cycles n
    | .fault _ => s
    | .refused _ => s

/-- The final read (R37): the whole state, once the run has ended. -/
def State.finalRead (s : State) : Option State :=
  match s.runState with
  | .constructed => none
  | .running => none
  | .halted => some s
  | .faulted => some s

/-- The host's rendering of the output sequence (R103): each value in decimal, one per line; the line
end is the newline character (log entry 11). -/
def renderOutput (out : List Byte) : List Char :=
  out.flatMap fun v => decimal v.toNat ++ ['\n']

end Sys2Proof.Machine
end

