-- ==== Sys2Proof/Safety.lean ====
section
/-! DEFINITION. The terms claims are stated in: the invariant of the core, what a step keeps, a fault taken,
a run of executed instructions. -/

namespace Sys2Proof.Machine

/-! ### The invariant -/

/-- The shape of a fault record by its kind (R201 to R206): which of the opcode and the detail it holds, and
within what range. No record has the kind ALUSelectorError. -/
def FaultRecord.wf (r : FaultRecord) : Bool :=
  match r.kind, r.opcode, r.detail with
  | .unknownInstruction, some b, none => (Opcode.ofByte? b).isNone
  | .invalidRegister, some b, some v => (Opcode.ofByte? b).isSome && decide (8 ≤ v.toNat)
  | .endOfImage, none, some a => a == r.pc
  | .endOfImage, some b, some _ => (Opcode.ofByte? b).isSome
  | .compatRetSP, some b, some v => b == 0x11 && v == 7
  | _, _, _ => false

/-- FL holds no flag or exactly one of E, G and L (R27, R28). -/
def State.flLegal (s : State) : Bool := s.fl == 0 || s.fl == 1 || s.fl == 2 || s.fl == 4

/-- The record is empty in every state but Faulted; there it is well formed and names the address `pc` still
holds (R31, R200). -/
def State.faultAgrees (s : State) : Bool :=
  match s.faultRecord with
  | none => s.runState != .faulted
  | some r => s.runState == .faulted && r.pc == s.pc && r.wf

/-- The invariant of the core. -/
abbrev State.Inv (s : State) : Prop :=
  s.mem.wf ∧ s.flLegal = true ∧ s.faultAgrees = true

/-! ### What is kept from one state to another -/

/-- Every register but those listed holds what it held. -/
def State.regsKept (s t : State) (written : List Reg) : Prop :=
  ∀ r : Reg, r ∉ written → t.readReg r = s.readReg r

/-- Every byte of memory but those at the listed addresses reads as it read. -/
def State.memKept (s t : State) (stored : List Byte) : Prop :=
  ∀ a : Byte, a ∉ stored → t.readMem a = s.readMem a

/-- What only the host sees, but for the output, is as it was (R35): the run state, the fault record, the
image length, the mark of Load and the parameters. -/
def State.hostKept (s t : State) : Prop :=
  t.runState = s.runState ∧ t.faultRecord = s.faultRecord ∧ t.imageLen = s.imageLen ∧
    t.loaded = s.loaded ∧ t.config = s.config

/-- What a program can read (R35, R37): the registers, `pc`, FL and memory. -/
def State.programView (s : State) : Vector Byte 8 × Byte × Byte × Memory := (s.regs, s.pc, s.fl, s.mem)

/-! ### Fetching and faulting -/

/-- The instruction cycle may fetch a byte at `a`: no end-of-image check, or `a` below `L` (R84). -/
abbrev State.fetchable (s : State) (a : Byte) : Prop :=
  s.config.fetchPastImage = .execute ∨ a.toNat < s.imageLen.val

/-- `t` is `s` ended in Faulted with the record `r`, and nothing else changed (R200). -/
def State.faultedFrom (s t : State) (r : FaultRecord) : Prop :=
  t.runState = .faulted ∧ t.faultRecord = some r ∧ s.regsKept t [] ∧ s.memKept t [] ∧ t.pc = s.pc ∧
    t.fl = s.fl ∧ t.out = s.out ∧ t.imageLen = s.imageLen ∧ t.loaded = s.loaded ∧ t.config = s.config

/-- The next instruction cycle raises the fault of record `r`. -/
def State.raisesFault (s : State) (r : FaultRecord) : Prop :=
  ∃ t, step s = .next t ∧ s.faultedFrom t r

/-! ### Runs -/

/-- `Executes s is t`: from `s`, running cycles that execute the instructions `is`, in order, lead to `t`. -/
inductive Executes : State → List Instr → State → Prop where
  | nil (s : State) : Executes s [] s
  | cons {s t u : State} {i : Instr} {is : List Instr} :
      s.runState = .running → s.fetch = .instr i → exec i s = .next t → Executes t is u →
      Executes s (i :: is) u

/-- The instruction writes `x[7]` as a destination register, the condition R145 rules out. -/
def writesSpDirectly : Instr → Bool
  | .ldi r _ => r == spReg
  | .prn _ => false
  | .hlt => false
  | .mul a _ => a == spReg
  | .add a _ => a == spReg
  | .cmp _ _ => false
  | .push _ => false
  | .pop r => r == spReg
  | .call _ => false
  | .ret operand => operand.isSome
  | .jmp _ => false
  | .jeq _ => false
  | .jne _ => false

/-- How many of the executed instructions are of a row of the opcode map. -/
def countOpcode (o : Opcode) (is : List Instr) : Nat := is.countP (fun i => i.opcode == o)

end Sys2Proof.Machine
end

