-- ==== Sys2Proof/Certificates/Slice0/Obligations.lean ====
section
/-! DEFINITION. The statements for the provers. Each docstring names the rule or the part of spec/ it
formalises. -/

namespace Sys2Proof.Claims

open Sys2Proof.Machine

/-- The thirteen opcode bytes of R72, written out from its hex column. -/
def opcodeBytes : List Byte :=
  [0x82, 0x47, 0x01, 0xA2, 0xA0, 0xA7, 0x45, 0x46, 0x50, 0x11, 0x54, 0x55, 0x56]

/-- The cycle of an instruction of format N at `pc`: end of image, or it runs. What is said of a fault, here and
in the next three, rests on the spec's own decisions: that end of image is a fault on D6 (R84, R204), that a
bad register byte is one on D3 (R76, R203), the order of the checks on D15 (R207), that a fault changes
nothing else on D7 (R200). That the record of an end of image on the opcode address holds no opcode is the
model's reading, log entry 4. -/
def CycleN (s : State) (i : Instr) : Prop :=
  (¬ s.fetchable s.pc → s.raisesFault ⟨.endOfImage, s.pc, none, some s.pc⟩) ∧
  (s.fetchable s.pc → step s = exec i s)

/-- The cycle of an instruction of format R with opcode byte `b` at `pc`: end of image on either byte, an
operand byte that names no register, or it runs. -/
def CycleR (s : State) (b : Byte) (mk : Reg → Instr) : Prop :=
  (¬ s.fetchable s.pc → s.raisesFault ⟨.endOfImage, s.pc, none, some s.pc⟩) ∧
  (s.fetchable s.pc → ¬ s.fetchable (s.pc + 1) →
    s.raisesFault ⟨.endOfImage, s.pc, some b, some (s.pc + 1)⟩) ∧
  (s.fetchable s.pc → s.fetchable (s.pc + 1) →
    (8 ≤ (s.readMem (s.pc + 1)).toNat →
      s.raisesFault ⟨.invalidRegister, s.pc, some b, some (s.readMem (s.pc + 1))⟩) ∧
    (∀ r : Reg, (s.readMem (s.pc + 1)).toNat = r.val → step s = exec (mk r) s))

/-- The cycle of an instruction of format RI: as format R, with the immediate byte fetched after the
register byte and before the register is checked. -/
def CycleRI (s : State) (b : Byte) (mk : Reg → Byte → Instr) : Prop :=
  (¬ s.fetchable s.pc → s.raisesFault ⟨.endOfImage, s.pc, none, some s.pc⟩) ∧
  (s.fetchable s.pc → ¬ s.fetchable (s.pc + 1) →
    s.raisesFault ⟨.endOfImage, s.pc, some b, some (s.pc + 1)⟩) ∧
  (s.fetchable s.pc → s.fetchable (s.pc + 1) → ¬ s.fetchable (s.pc + 2) →
    s.raisesFault ⟨.endOfImage, s.pc, some b, some (s.pc + 2)⟩) ∧
  (s.fetchable s.pc → s.fetchable (s.pc + 1) → s.fetchable (s.pc + 2) →
    (8 ≤ (s.readMem (s.pc + 1)).toNat →
      s.raisesFault ⟨.invalidRegister, s.pc, some b, some (s.readMem (s.pc + 1))⟩) ∧
    (∀ r : Reg, (s.readMem (s.pc + 1)).toNat = r.val → step s = exec (mk r (s.readMem (s.pc + 2))) s))

/-- The cycle of an instruction of format RR: as format RI, with the second operand a register checked
after the first. -/
def CycleRR (s : State) (b : Byte) (mk : Reg → Reg → Instr) : Prop :=
  (¬ s.fetchable s.pc → s.raisesFault ⟨.endOfImage, s.pc, none, some s.pc⟩) ∧
  (s.fetchable s.pc → ¬ s.fetchable (s.pc + 1) →
    s.raisesFault ⟨.endOfImage, s.pc, some b, some (s.pc + 1)⟩) ∧
  (s.fetchable s.pc → s.fetchable (s.pc + 1) → ¬ s.fetchable (s.pc + 2) →
    s.raisesFault ⟨.endOfImage, s.pc, some b, some (s.pc + 2)⟩) ∧
  (s.fetchable s.pc → s.fetchable (s.pc + 1) → s.fetchable (s.pc + 2) →
    (8 ≤ (s.readMem (s.pc + 1)).toNat →
      s.raisesFault ⟨.invalidRegister, s.pc, some b, some (s.readMem (s.pc + 1))⟩) ∧
    ((s.readMem (s.pc + 1)).toNat < 8 → 8 ≤ (s.readMem (s.pc + 2)).toNat →
      s.raisesFault ⟨.invalidRegister, s.pc, some b, some (s.readMem (s.pc + 2))⟩) ∧
    (∀ x y : Reg, (s.readMem (s.pc + 1)).toNat = x.val → (s.readMem (s.pc + 2)).toNat = y.val →
      step s = exec (mk x y) s))

/-- The next cycle of `s` takes `v` as its opcode byte: an instruction it fetches is of the row of `v`, a fault of
its operands records `v`, a byte of no row is an unknown instruction, and 0x01 halts. -/
def FetchesOpcodeByte (s : State) (v : Byte) : Prop :=
  (∀ i, s.fetch = .instr i → i.opcode.byte = v) ∧
  (∀ r, s.fetch = .raises r → r.opcode = some v) ∧
  (v ∉ opcodeBytes → s.raisesFault ⟨.unknownInstruction, s.pc, some v, none⟩) ∧
  (v = 0x01 → ∃ u, step s = .next u ∧ u.runState = .halted)

end Sys2Proof.Claims

open Sys2Proof Sys2Proof.Machine Sys2Proof.Claims

/-! ### Instructions: effect, frame, completion, encoding and the faults of their cycle -/

/-- LDI of spec/40_register_io_halt.md (R100): the immediate, not extended, goes to the register (SP when it
is 7) and `pc` moves on by 3; nothing else changes; its bytes are 0x82, reg, imm. The faults of its cycle rest
on the spec's decisions D3, D6, D7 and D15 and on log entry 4 (the record of an end of image on the opcode
address). -/
def Obligations.LdiLoadsImmediate : Prop :=
  (∀ (r : Reg) (imm : Byte) (s : State), ∃ t, exec (.ldi r imm) s = .next t ∧
    t.readReg r = imm ∧ t.pc = s.pc + 3 ∧ t.fl = s.fl ∧ t.out = s.out ∧
    s.regsKept t [r] ∧ s.memKept t [] ∧ s.hostKept t) ∧
  (∀ (r : Reg) (imm : Byte), encode (.ldi r imm) = [0x82, BitVec.ofNat 8 r.val, imm]) ∧
  (∀ s : State, s.runState = .running → s.readMem s.pc = 0x82 → CycleRI s 0x82 .ldi)

/-- PRN of spec/40_register_io_halt.md (R102): the value is appended to the output and nothing else but `pc`
changes. That PRN neither waits nor fails is the spec's decision D11. The faults of its cycle rest
on the spec's decisions D3, D6, D7 and D15 and on log entry 4 (the record of an end of image on the opcode
address). -/
def Obligations.PrnAppendsToOutput : Prop :=
  (∀ (r : Reg) (s : State), ∃ t, exec (.prn r) s = .next t ∧
    t.out = s.out ++ [s.readReg r] ∧ t.pc = s.pc + 2 ∧ t.fl = s.fl ∧
    s.regsKept t [] ∧ s.memKept t [] ∧ s.hostKept t) ∧
  (∀ r : Reg, encode (.prn r) = [0x47, BitVec.ofNat 8 r.val]) ∧
  (∀ s : State, s.runState = .running → s.readMem s.pc = 0x47 → CycleR s 0x47 .prn)

/-- HLT of spec/40_register_io_halt.md (R104): `pc` moves one past it and the run ends in Halted, where no
further cycle runs; nothing else changes; its byte is 0x01. The fault of its cycle rests
on the spec's decisions D6 and D7 and on log entry 4 (the record of an end of image on the opcode address). -/
def Obligations.HltEndsTheRun : Prop :=
  (∀ s : State, ∃ t, exec .hlt s = .next t ∧
    t.runState = .halted ∧ t.pc = s.pc + 1 ∧ t.fl = s.fl ∧ t.out = s.out ∧
    s.regsKept t [] ∧ s.memKept t [] ∧ t.faultRecord = s.faultRecord ∧ t.imageLen = s.imageLen ∧
    t.loaded = s.loaded ∧ t.config = s.config ∧ ∀ u, step t ≠ .next u) ∧
  encode .hlt = [0x01] ∧
  (∀ s : State, s.runState = .running → s.readMem s.pc = 0x01 → CycleN s .hlt)

/-- MUL of spec/41_alu.md (R120): the low 8 bits of the product of both old values are left in regA (which
may be SP, and may be regB), FL as it was; its bytes. The faults of its cycle rest
on the spec's decisions D3, D6, D7 and D15 and on log entry 4 (the record of an end of image on the opcode
address). -/
def Obligations.MulKeepsLowByteOfProduct : Prop :=
  (∀ (a b : Reg) (s : State), ∃ t, exec (.mul a b) s = .next t ∧
    (t.readReg a).toNat = ((s.readReg a).toNat * (s.readReg b).toNat) % 256 ∧
    t.pc = s.pc + 3 ∧ t.fl = s.fl ∧ t.out = s.out ∧
    s.regsKept t [a] ∧ s.memKept t [] ∧ s.hostKept t) ∧
  (∀ a b : Reg, encode (.mul a b) = [0xA2, BitVec.ofNat 8 a.val, BitVec.ofNat 8 b.val]) ∧
  (∀ s : State, s.runState = .running → s.readMem s.pc = 0xA2 → CycleRR s 0xA2 .mul)

/-- ADD of spec/41_alu.md (R123): the low 8 bits of the sum of both old values are left in regA (which may be
SP, and may be regB), FL as it was; its bytes. The faults of its cycle rest
on the spec's decisions D3, D6, D7 and D15 and on log entry 4 (the record of an end of image on the opcode
address). -/
def Obligations.AddKeepsLowByteOfSum : Prop :=
  (∀ (a b : Reg) (s : State), ∃ t, exec (.add a b) s = .next t ∧
    (t.readReg a).toNat = ((s.readReg a).toNat + (s.readReg b).toNat) % 256 ∧
    t.pc = s.pc + 3 ∧ t.fl = s.fl ∧ t.out = s.out ∧
    s.regsKept t [a] ∧ s.memKept t [] ∧ s.hostKept t) ∧
  (∀ a b : Reg, encode (.add a b) = [0xA0, BitVec.ofNat 8 a.val, BitVec.ofNat 8 b.val]) ∧
  (∀ s : State, s.runState = .running → s.readMem s.pc = 0xA0 → CycleRR s 0xA0 .add)

/-- CMP of spec/41_alu.md (R126): all of FL is written by the unsigned comparison, with exactly one of E, L, G
set, and nothing else but `pc`; its bytes. The faults of its cycle rest
on the spec's decisions D3, D6, D7 and D15 and on log entry 4 (the record of an end of image on the opcode
address). -/
def Obligations.CmpWritesUnsignedComparison : Prop :=
  (∀ (a b : Reg) (s : State), ∃ t, exec (.cmp a b) s = .next t ∧
    ((s.readReg a).toNat = (s.readReg b).toNat → t.fl = 0b00000001) ∧
    ((s.readReg a).toNat < (s.readReg b).toNat → t.fl = 0b00000100) ∧
    ((s.readReg b).toNat < (s.readReg a).toNat → t.fl = 0b00000010) ∧
    [t.flagE, t.flagG, t.flagL].count true = 1 ∧
    t.pc = s.pc + 3 ∧ t.out = s.out ∧ s.regsKept t [] ∧ s.memKept t [] ∧ s.hostKept t) ∧
  (∀ a b : Reg, encode (.cmp a b) = [0xA7, BitVec.ofNat 8 a.val, BitVec.ofNat 8 b.val]) ∧
  (∀ s : State, s.runState = .running → s.readMem s.pc = 0xA7 → CycleRR s 0xA7 .cmp)

/-- PUSH of spec/42_stack.md (R140): SP goes down by one and the byte at the new SP becomes the register's
value. PUSH R7 stores the decremented SP by the spec's decision D10 (`[derived: from the line order of this
rule]`). The faults of its cycle rest
on the spec's decisions D3, D6, D7 and D15 and on log entry 4 (the record of an end of image on the opcode
address). -/
def Obligations.PushStoresBelowSp : Prop :=
  (∀ (r : Reg) (s : State), ∃ t, exec (.push r) s = .next t ∧
    t.sp = s.sp - 1 ∧ s.pushAddr = s.sp - 1 ∧
    t.readMem s.pushAddr = (if r = 7 then s.sp - 1 else s.readReg r) ∧
    t.pc = s.pc + 2 ∧ t.fl = s.fl ∧ t.out = s.out ∧
    s.regsKept t [7] ∧ s.memKept t [s.pushAddr] ∧ s.hostKept t) ∧
  (∀ r : Reg, encode (.push r) = [0x45, BitVec.ofNat 8 r.val]) ∧
  (∀ s : State, s.runState = .running → s.readMem s.pc = 0x45 → CycleR s 0x45 .push)

/-- POP of spec/42_stack.md (R142): the byte at SP goes to the register and SP up by one; the byte stays in
memory. POP R7 leaves the popped byte plus one in SP by the spec's decision D10 (`[derived: from the line
order of this rule]`). The faults of its cycle rest
on the spec's decisions D3, D6, D7 and D15 and on log entry 4 (the record of an end of image on the opcode
address). -/
def Obligations.PopLoadsFromSp : Prop :=
  (∀ (r : Reg) (s : State), ∃ t, exec (.pop r) s = .next t ∧
    (r ≠ 7 → t.readReg r = s.readMem s.sp ∧ t.sp = s.sp + 1) ∧
    (r = 7 → t.sp = s.readMem s.sp + 1) ∧
    t.pc = s.pc + 2 ∧ t.fl = s.fl ∧ t.out = s.out ∧
    s.regsKept t [r, 7] ∧ s.memKept t [] ∧ s.hostKept t) ∧
  (∀ r : Reg, encode (.pop r) = [0x46, BitVec.ofNat 8 r.val]) ∧
  (∀ s : State, s.runState = .running → s.readMem s.pc = 0x46 → CycleR s 0x46 .pop)

/-- CALL of spec/43_control.md (R160): the address of the byte after CALL goes on the stack and the
register's value to `pc`. CALL R7 jumps to the decremented SP by the spec's decision D10 (`[derived: from the
line order of this rule]`). The faults of its cycle rest
on the spec's decisions D3, D6, D7 and D15 and on log entry 4 (the record of an end of image on the opcode
address). -/
def Obligations.CallPushesReturnAddress : Prop :=
  (∀ (r : Reg) (s : State), ∃ t, exec (.call r) s = .next t ∧
    t.sp = s.sp - 1 ∧ s.pushAddr = s.sp - 1 ∧ t.readMem s.pushAddr = s.pc + 2 ∧
    t.pc = (if r = 7 then s.sp - 1 else s.readReg r) ∧ t.fl = s.fl ∧ t.out = s.out ∧
    s.regsKept t [7] ∧ s.memKept t [s.pushAddr] ∧ s.hostKept t) ∧
  (∀ r : Reg, encode (.call r) = [0x50, BitVec.ofNat 8 r.val]) ∧
  (∀ s : State, s.runState = .running → s.readMem s.pc = 0x50 → CycleR s 0x50 .call)

/-- RET of spec/43_control.md (R163), the default: the byte at SP, whatever it is, goes to `pc`, SP goes up
by one, and no other register is written. That it is one byte long is the spec's decision D4; that the
meaning follows the form of RET whatever the parameter is log entry 7. The fault of its cycle rests
on the spec's decisions D6 and D7 and on log entry 4 (the record of an end of image on the opcode address). -/
def Obligations.RetPopsProgramCounter : Prop :=
  (∀ s : State, ∃ t, exec (.ret none) s = .next t ∧
    t.pc = s.readMem s.sp ∧ t.sp = s.sp + 1 ∧ t.fl = s.fl ∧ t.out = s.out ∧
    s.regsKept t [7] ∧ s.memKept t [] ∧ s.hostKept t) ∧
  encode (.ret none) = [0x11] ∧
  (∀ s : State, s.runState = .running → s.config.retWritesRegister = false → s.readMem s.pc = 0x11 →
    CycleN s (.ret none))

/-- RET under `RET_WRITES_REGISTER = true` (R166 of spec/43_control.md; the spec's decision D5): the popped
byte goes to the operand register too, and operand 7 raises CompatRetSP with nothing written. That the
meaning follows the form of RET whatever the parameter is log entry 7. The faults of its cycle rest
on the spec's decisions D3, D6, D7 and D15 and on log entry 4 (the record of an end of image on the opcode
address). -/
def Obligations.CompatRetWritesRegister : Prop :=
  (∀ (r : Reg) (s : State), r ≠ 7 → ∃ t, exec (.ret (some r)) s = .next t ∧
    t.readReg r = s.readMem s.sp ∧ t.pc = s.readMem s.sp ∧ t.sp = s.sp + 1 ∧ t.fl = s.fl ∧
    t.out = s.out ∧ s.regsKept t [r, 7] ∧ s.memKept t [] ∧ s.hostKept t) ∧
  (∀ s : State, ∃ t, exec (.ret (some 7)) s = .next t ∧
    s.faultedFrom t ⟨.compatRetSP, s.pc, some 0x11, some 7⟩) ∧
  (∀ r : Reg, encode (.ret (some r)) = [0x11, BitVec.ofNat 8 r.val]) ∧
  (∀ s : State, s.runState = .running → s.config.retWritesRegister = true → s.readMem s.pc = 0x11 →
    CycleR s 0x11 (fun r => .ret (some r)))

/-- JMP of spec/43_control.md (R168): `pc` becomes the register's value, whatever it is, and nothing else
changes; a target past the image is no fault of JMP; its bytes. The faults of its cycle rest
on the spec's decisions D3, D6, D7 and D15 and on log entry 4 (the record of an end of image on the opcode
address). -/
def Obligations.JmpSetsProgramCounter : Prop :=
  (∀ (r : Reg) (s : State), ∃ t, exec (.jmp r) s = .next t ∧
    t.pc = s.readReg r ∧ t.fl = s.fl ∧ t.out = s.out ∧
    s.regsKept t [] ∧ s.memKept t [] ∧ s.hostKept t) ∧
  (∀ r : Reg, encode (.jmp r) = [0x54, BitVec.ofNat 8 r.val]) ∧
  (∀ s : State, s.runState = .running → s.readMem s.pc = 0x54 → CycleR s 0x54 .jmp)

/-- JEQ of spec/43_control.md (R170): taken exactly when bit 0 of FL is 1. That an operand of 8 or more
faults when the jump is not taken is the spec's decision D3. The faults of its cycle rest
on the spec's decisions D3, D6, D7 and D15 and on log entry 4 (the record of an end of image on the opcode
address). -/
def Obligations.JeqJumpsOnEqual : Prop :=
  (∀ (r : Reg) (s : State), ∃ t, exec (.jeq r) s = .next t ∧
    (s.fl.toNat % 2 = 1 → t.pc = s.readReg r) ∧ (s.fl.toNat % 2 = 0 → t.pc = s.pc + 2) ∧
    t.fl = s.fl ∧ t.out = s.out ∧ s.regsKept t [] ∧ s.memKept t [] ∧ s.hostKept t) ∧
  (∀ r : Reg, encode (.jeq r) = [0x55, BitVec.ofNat 8 r.val]) ∧
  (∀ s : State, s.runState = .running → s.readMem s.pc = 0x55 → CycleR s 0x55 .jeq)

/-- JNE of spec/43_control.md (R172): taken exactly when bit 0 of FL is 0. That an operand of 8 or more
faults when the jump is not taken is the spec's decision D3. The faults of its cycle rest
on the spec's decisions D3, D6, D7 and D15 and on log entry 4 (the record of an end of image on the opcode
address). -/
def Obligations.JneJumpsOnNotEqual : Prop :=
  (∀ (r : Reg) (s : State), ∃ t, exec (.jne r) s = .next t ∧
    (s.fl.toNat % 2 = 0 → t.pc = s.readReg r) ∧ (s.fl.toNat % 2 = 1 → t.pc = s.pc + 2) ∧
    t.fl = s.fl ∧ t.out = s.out ∧ s.regsKept t [] ∧ s.memKept t [] ∧ s.hostKept t) ∧
  (∀ r : Reg, encode (.jne r) = [0x56, BitVec.ofNat 8 r.val]) ∧
  (∀ s : State, s.runState = .running → s.readMem s.pc = 0x56 → CycleR s 0x56 .jne)

/-! ### Encoding -/

/-- A few words written out from R72: one of each format, and one opcode byte of no row. -/
def Obligations.SampleWordsDecode : Prop :=
  decode .default [0x82, 0x00, 0x08] = .instr (.ldi 0 8) [] ∧
  decode .default [0x47, 0x05] = .instr (.prn 5) [] ∧
  decode .default [0x01] = .instr .hlt [] ∧
  decode .default [0xA0, 0x02, 0x01] = .instr (.add 2 1) [] ∧
  decode .default [0xA7, 0x00, 0x01] = .instr (.cmp 0 1) [] ∧
  decode .default [0x45, 0x07] = .instr (.push 7) [] ∧
  decode .default [0x11, 0x02] = .instr (.ret none) [0x02] ∧
  decode .default [0x56, 0x03] = .instr (.jne 3) [] ∧
  decode .default [0xA1, 0x00, 0x00] = .reject (.unknownInstruction 0xA1)

/-- Decoding an encoding gives the instruction back, with every operand at every value, under either choice
of the parameters and whatever bytes follow (spec/30_encoding.md, Formats and Opcode map). -/
def Obligations.DecodeInvertsEncode : Prop :=
  ∀ (cfg : Config) (i : Instr) (rest : List Byte),
    i.wellFormed cfg = true → decode cfg (encode i ++ rest) = .instr i rest

/-- What the decoder reads is a well-formed instruction whose encoding the bytes start with: two different
encodings never read as one instruction (spec/30_encoding.md, Formats and Opcode map). -/
def Obligations.DecodedBytesAreTheEncoding : Prop :=
  ∀ (cfg : Config) (bs rest : List Byte) (i : Instr),
    decode cfg bs = .instr i rest → i.wellFormed cfg = true ∧ bs = encode i ++ rest

/-- R71, whole: the first byte alone fixes how many bytes an instruction takes. -/
def Obligations.OpcodeByteFixesLength : Prop :=
  ∀ (cfg : Config) (b : Byte) (ops ops' rest rest' : List Byte) (i i' : Instr),
    decode cfg (b :: ops) = .instr i rest → decode cfg (b :: ops') = .instr i' rest' →
    i.length = i'.length ∧ (b :: ops).length = i.length + rest.length

/-- R73, whole: the whole opcode byte is compared, so the decoder knows exactly the thirteen bytes of the
opcode map, and each belongs to its own row. -/
def Obligations.OpcodeByteMatchedWhole : Prop :=
  (∀ (cfg : Config) (b : Byte) (ops : List Byte),
    decode cfg (b :: ops) = .reject (.unknownInstruction b) ↔ b ∉ opcodeBytes) ∧
  (∀ (cfg : Config) (b : Byte) (ops rest : List Byte) (i : Instr),
    decode cfg (b :: ops) = .instr i rest → b = i.opcode.byte) ∧
  Opcode.all.map Opcode.byte = opcodeBytes

/-! ### The instruction cycle -/

/-- When the bytes at `pc` decode to an instruction and each of them may be fetched, a step is exactly that
instruction's execution (spec/30_encoding.md, the instruction cycle). -/
def Obligations.StepRunsDecodedInstruction : Prop :=
  ∀ (s : State) (i : Instr) (rest : List Byte),
    s.runState = .running → decode s.config (s.instrBytes maxLength) = .instr i rest →
    (∀ k, k < i.length → s.fetchable (s.byteAddr k)) → step s = exec i s

/-- What the cycle fetches is what stands in memory: the instruction's encoding lies at `pc` and after,
wrapping at 256, every byte of it may be fetched, and the disassembler reads the same there
(spec/30_encoding.md, the instruction cycle and R92, which the spec derives). That the disassembler takes RET
as two bytes under `RET_WRITES_REGISTER = true` is log entry 12. -/
def Obligations.FetchedInstructionStandsAtPc : Prop :=
  ∀ (s : State) (i : Instr), s.fetch = .instr i →
    i.wellFormed s.config = true ∧ s.instrBytes i.length = encode i ∧
    (∀ k, k < i.length → s.fetchable (s.byteAddr k)) ∧
    s.disassembleAt s.pc = .row i.opcode (encode i)

/-- A step answers a next state exactly in Running, and every instruction's meaning answers one in every
state: no cycle is enabled elsewhere and no run stops without HLT or a fault (spec/30_encoding.md R83, which
rests on the spec's decision D16). -/
def Obligations.CycleEnabledExactlyInRunning : Prop :=
  (∀ s : State, (∃ t, step s = .next t) ↔ s.runState = .running) ∧
  (∀ (i : Instr) (s : State), ∃ t, exec i s = .next t)

/-- The fault a cycle raises is that of the first check that fails, in the order the spec decides (D15 of
spec/92_eei_decisions.md; R207): end of image on the opcode byte (D6), unknown opcode, end of image on operand
1, then 2, invalid register in operand 1, then 2 (D3), and last CompatRetSP (D5). That nothing else changes is
D7. That the first record holds no opcode is log entry 4. -/
def Obligations.FirstFailingCheckGivesTheFault : Prop :=
  ∀ s : State, s.runState = .running →
    (¬ s.fetchable s.pc → s.raisesFault ⟨.endOfImage, s.pc, none, some s.pc⟩) ∧
    (s.fetchable s.pc → Opcode.ofByte? (s.readMem s.pc) = none →
      s.raisesFault ⟨.unknownInstruction, s.pc, some (s.readMem s.pc), none⟩) ∧
    (∀ o, s.fetchable s.pc → Opcode.ofByte? (s.readMem s.pc) = some o →
      (1 ≤ o.operandCount s.config → ¬ s.fetchable (s.pc + 1) →
        s.raisesFault ⟨.endOfImage, s.pc, some (s.readMem s.pc), some (s.pc + 1)⟩) ∧
      (o.operandCount s.config = 2 → s.fetchable (s.pc + 1) → ¬ s.fetchable (s.pc + 2) →
        s.raisesFault ⟨.endOfImage, s.pc, some (s.readMem s.pc), some (s.pc + 2)⟩) ∧
      ((∀ k, 1 ≤ k → k ≤ o.operandCount s.config → s.fetchable (s.byteAddr k)) →
        (1 ≤ o.operandCount s.config → 8 ≤ (s.readMem (s.pc + 1)).toNat →
          s.raisesFault
            ⟨.invalidRegister, s.pc, some (s.readMem s.pc), some (s.readMem (s.pc + 1))⟩) ∧
        (o.format s.config = .rr → (s.readMem (s.pc + 1)).toNat < 8 →
          8 ≤ (s.readMem (s.pc + 2)).toNat →
          s.raisesFault
            ⟨.invalidRegister, s.pc, some (s.readMem s.pc), some (s.readMem (s.pc + 2))⟩) ∧
        (o = .ret → s.config.retWritesRegister = true → s.readMem (s.pc + 1) = 7 →
          s.raisesFault ⟨.compatRetSP, s.pc, some 0x11, some 7⟩)))

/-- An opcode byte of no row, once fetched, ends the run with the kind UnknownInstruction and a record of the
byte and its address (R202 of spec/60_exceptions.md); nothing further runs and nothing is output. That
registers, FL, memory and `pc` are kept is the spec's decision D7 (R200); that the end-of-image check comes
first is D6 and D15 (R207); log entry 9. -/
def Obligations.UnknownOpcodeFaults : Prop :=
  ∀ s : State, s.runState = .running → s.fetchable s.pc → s.readMem s.pc ∉ opcodeBytes →
    ∃ t, step s = .next t ∧
      s.faultedFrom t ⟨.unknownInstruction, s.pc, some (s.readMem s.pc), none⟩ ∧
      ∀ u, step t ≠ .next u

/-- A fault saves nothing to memory or the stack, goes to no vector, ends the run in Faulted with its record
(R210 of spec/60_exceptions.md), and no step follows (R211). That registers, FL, `pc` and output are kept too is
the spec's decision D7 (R200; log entry 9). -/
def Obligations.FaultOnlyRecordsAndStops : Prop :=
  ∀ s t : State, step s = .next t → t.runState = .faulted →
    ∃ r : FaultRecord, r.pc = s.pc ∧ s.faultedFrom t r ∧ t.sp = s.sp ∧ ∀ u, step t ≠ .next u

/-- No step from a state without a fault record records the kind ALUSelectorError (spec/60_exceptions.md R206, the spec's decision D20). -/
def Obligations.AluSelectorErrorNeverRaised : Prop :=
  ∀ (s t : State) (r : FaultRecord), s.faultRecord = none → step s = .next t →
    t.faultRecord = some r → r.kind ≠ .aluSelectorError

/-- The run states and their transitions (R29 of spec/10_state.md; the steps of a run, R246). That Run leads to
Running from every Constructed state, one without a Load too, is the spec's decision D9 (log entry 9); that RET
with the operand 7 ends in Faulted, though it is decoded, is its decision D5 (R205; log entry 7 on RET's
operand). -/
def Obligations.RunStateTransitions : Prop :=
  State.reset.runState = .constructed ∧
  (∀ s : State, s.runState = .constructed → s.startRun.runState = .running) ∧
  (∀ s t : State, step s = .next t → s.runState = .running ∧
    ((∃ i, s.fetch = .instr i ∧ i ≠ .hlt ∧ i ≠ .ret (some 7) ∧ t.runState = .running) ∨
     (s.fetch = .instr .hlt ∧ t.runState = .halted) ∨
     (((∃ r, s.fetch = .raises r) ∨ s.fetch = .instr (.ret (some 7))) ∧ t.runState = .faulted))) ∧
  (∀ s : State, s.runState = .halted ∨ s.runState = .faulted →
    s.startRun = s ∧ ∀ t, step s ≠ .next t)

/-! ### Invariants and whole-machine rules -/

/-- From every state that meets the invariant a step gives a state that meets it: memory in its canonical
form, FL with at most one of E, G and L, and a well-formed fault record exactly in Faulted, at the address
`pc` holds (spec/10_state.md, sections 3 and 4). The form of memory is log entry 5, the shape of an end-of-image
record log entry 4, and that `pc` stays at the faulting instruction the spec's decision D7. -/
def Obligations.StepKeepsInvariant : Prop :=
  ∀ s t : State, s.Inv → step s = .next t → t.Inv

/-- The state after construction meets the invariant (spec/70_reset_and_hazards.md, Reset). The canonical form of
memory is the model's choice (log entry 5). -/
def Obligations.ResetMeetsInvariant : Prop :=
  State.reset.Inv

/-- Load and Run keep the invariant (spec/70_reset_and_hazards.md, Load and run). The canonical form of memory is
the model's choice (log entry 5); the shape of an end-of-image record is log entry 4, and its address is that of
`pc` by the spec's decision D7. -/
def Obligations.LoadAndRunKeepInvariant : Prop :=
  ∀ s : State, s.Inv → s.startRun.Inv ∧ ∀ bytes t, s.load bytes = .ok t → t.Inv

/-- R28, whole: FL is 0 at reset; CMP alone writes it, all of it, with exactly one of three values; JEQ and
JNE alone read it, and bit 0 only. -/
def Obligations.FlagsWrittenByCmpReadByJumps : Prop :=
  State.reset.fl = 0 ∧
  (∀ (i : Instr) (s t : State), exec i s = .next t → (∀ a b, i ≠ .cmp a b) → t.fl = s.fl) ∧
  (∀ (a b : Reg) (s t : State), exec (.cmp a b) s = .next t →
    t.fl = 0b001 ∨ t.fl = 0b010 ∨ t.fl = 0b100) ∧
  (∀ (i : Instr) (s t : State) (f : Byte), exec i s = .next t →
    ((∃ r, i = .jeq r ∨ i = .jne r) → f.toNat % 2 = s.fl.toNat % 2) →
    ∃ u, exec i (s.setFl f) = .next u ∧ u.setFl 0 = t.setFl 0)

/-- R129, whole: ADD and MUL are unsigned and modulo 256, overflow ends no run and sets no flag. -/
def Obligations.ArithmeticWrapsWithoutFaultOrFlag : Prop :=
  ∀ (a b : Reg) (s : State),
    (∃ t, exec (.add a b) s = .next t ∧ t.fl = s.fl ∧ t.runState = s.runState ∧
      (t.readReg a).toNat < 256 ∧
      ∃ carry, (s.readReg a).toNat + (s.readReg b).toNat = 256 * carry + (t.readReg a).toNat) ∧
    (∃ t, exec (.mul a b) s = .next t ∧ t.fl = s.fl ∧ t.runState = s.runState ∧
      (t.readReg a).toNat < 256 ∧
      ∃ high, (s.readReg a).toNat * (s.readReg b).toNat = 256 * high + (t.readReg a).toNat)

/-- PRN alone changes the output, and only by adding the register's value at its end; no instruction takes a
value away (spec/40_register_io_halt.md PRN; spec/10_state.md, Output sequence). -/
def Obligations.OnlyPrnChangesOutput : Prop :=
  ∀ (i : Instr) (s t : State), exec i s = .next t →
    t.out = s.out ∨ ∃ r, i = .prn r ∧ t.out = s.out ++ [s.readReg r]

/-- PUSH and CALL alone change memory, and only the byte below SP (spec/20_memory.md R55, which the spec
derives from its opcode table). -/
def Obligations.OnlyPushAndCallStore : Prop :=
  ∀ (i : Instr) (s t : State) (a : Byte), exec i s = .next t → t.readMem a ≠ s.readMem a →
    (∃ r, i = .push r ∨ i = .call r) ∧ a = s.pushAddr

/-- Two memories in canonical form that read the same at every address are the same data: the model's own
choice of how memory is held (log entry 5). -/
def Obligations.CanonicalMemoryIsUnique : Prop :=
  ∀ m n : Memory, m.wf → n.wf → (∀ a : Byte, m.read a.toNat = n.read a.toNat) → m = n

/-- No step changes the image length, the mark of Load or the parameters (spec/10_state.md R32, D6; the
last two are fields of the model's own, log entries 1 and 3). -/
def Obligations.StepKeepsLaunchState : Prop :=
  ∀ s t : State, step s = .next t →
    t.imageLen = s.imageLen ∧ t.loaded = s.loaded ∧ t.config = s.config

/-- The run is a function of what the program sees, the image length and the parameters: two running states
that agree on them agree after every number of cycles, in the same run state and fault, with the same values
output (spec/70_reset_and_hazards.md R254, which the spec derives; R37, the spec's decision D21). -/
def Obligations.RunDependsOnlyOnProgramView : Prop :=
  ∀ (n : Nat) (s s' : State), s.runState = .running → s'.runState = .running →
    s.programView = s'.programView → s.imageLen = s'.imageLen → s.config = s'.config →
    s.faultRecord = s'.faultRecord →
    (s.cycles n).programView = (s'.cycles n).programView ∧
    (s.cycles n).runState = (s'.cycles n).runState ∧
    (s.cycles n).faultRecord = (s'.cycles n).faultRecord ∧
    ∃ values, (s.cycles n).out = s.out ++ values ∧ (s'.cycles n).out = s'.out ++ values

/-- PUSH of one register other than R7, then POP to another, carries the value over, puts SP back and leaves
the value in memory below SP (spec/42_stack.md R144, which the spec derives). -/
def Obligations.PushThenPopRoundTrips : Prop :=
  ∀ (r q : Reg) (s : State), r ≠ 7 → q ≠ 7 →
    ∃ t u, exec (.push r) s = .next t ∧ exec (.pop q) t = .next u ∧
      u.readReg q = s.readReg r ∧ u.sp = s.sp ∧ u.readMem (s.sp - 1) = s.readReg r

/-- A RET that finds SP and the byte at SP as the CALL left them goes on at the byte after the CALL, with SP
as before it (spec/43_control.md R161, which the spec derives; C6 of spec/90_conflicts.md). -/
def Obligations.CallThenRetResumesAfterCall : Prop :=
  ∀ (r : Reg) (s t u : State), exec (.call r) s = .next t →
    u.sp = t.sp → u.readMem u.sp = t.readMem t.sp →
    ∃ v, exec (.ret none) u = .next v ∧ v.pc = s.pc + 2 ∧ v.sp = s.sp

/-- Over any run whose instructions write no `x[7]` as a destination register, SP is the balance, modulo
256, of the pushes, pops, calls and returns executed (spec/42_stack.md R145, which the spec derives; C10). -/
def Obligations.StackPointerIsTheBalance : Prop :=
  ∀ (s t : State) (is : List Instr), Executes s is t → (∀ i ∈ is, writesSpDirectly i = false) →
    t.sp = s.sp - BitVec.ofNat 8 (countOpcode .push is) + BitVec.ofNat 8 (countOpcode .pop is)
      - BitVec.ofNat 8 (countOpcode .call is) + BitVec.ofNat 8 (countOpcode .ret is)

/-- A byte PUSH or CALL has just stored is what the next cycle fetches at its address: as whichever byte of the
next instruction it stands there for, and as the opcode byte when `pc` comes to it, a known byte giving an
instruction of its row and an unknown one its fault (spec/20_memory.md R65, which the spec derives; program P7
is the byte 0x01). PUSH R7 and CALL R7 are as the spec's decision D10 says; that the fault changes nothing else
is D7, and that the end-of-image check comes first D6 and D15. -/
def Obligations.PushedByteIsFetchedNext : Prop :=
  ∀ (r : Reg) (s : State),
    (∃ t, exec (.push r) s = .next t ∧
      (∀ k, t.byteAddr k = s.pushAddr → t.instrByte k = if r = 7 then s.sp - 1 else s.readReg r) ∧
      (s.runState = .running → s.pc + 2 = s.pushAddr → s.fetchable s.pushAddr →
        FetchesOpcodeByte t (if r = 7 then s.sp - 1 else s.readReg r))) ∧
    (∃ t, exec (.call r) s = .next t ∧
      (∀ k, t.byteAddr k = s.pushAddr → t.instrByte k = s.pc + 2) ∧
      (s.runState = .running → (r = 7 ∨ s.readReg r = s.pushAddr) → s.fetchable s.pushAddr →
        FetchesOpcodeByte t (s.pc + 2)))

/-- A JMP to its own address runs for ever: each step goes on, to the same state, so every number of cycles
leads to it (spec/43_control.md JMP, corner cases; R83 of spec/30_encoding.md). -/
def Obligations.SelfJumpRunsForever : Prop :=
  ∀ (r : Reg) (s : State), s.runState = .running → s.fetchable s.pc → s.fetchable (s.pc + 1) →
    s.readMem s.pc = 0x54 → s.readMem (s.pc + 1) = BitVec.ofNat 8 r.val → s.readReg r = s.pc →
    step s = .next s ∧ ∀ n, s.cycles n = s

/-! ### Reset and the host -/

/-- R240, whole: the state after construction. -/
def Obligations.ResetState : Prop :=
  (∀ a : Byte, State.reset.readMem a = 0) ∧
  (∀ r : Reg, State.reset.readReg r = if r = 7 then 0xF4 else 0) ∧
  State.reset.pc = 0 ∧ State.reset.fl = 0 ∧ State.reset.runState = .constructed ∧
  State.reset.faultRecord = none ∧ State.reset.imageLen = 0 ∧ State.reset.out = []

/-- R51, whole: every cell is 0 at reset; Load writes the image to cells 0 to L-1; the others keep 0 until an
instruction writes them, which only a PUSH or a CALL does. -/
def Obligations.MemoryIsZeroThenTheImage : Prop :=
  (∀ a : Byte, State.reset.readMem a = 0) ∧
  (∀ bytes : List Byte, bytes.length ≤ 256 → ∃ t, State.reset.load bytes = .ok t ∧
    ∀ a : Byte, t.readMem a = bytes.getD a.toNat 0) ∧
  (∀ (s t : State) (a : Byte), step s = .next t → t.readMem a ≠ s.readMem a →
    ∃ r, s.fetch = .instr (.push r) ∨ s.fetch = .instr (.call r))

/-- Load puts the image at 0 and up, records its length and writes nothing else (spec/70_reset_and_hazards.md
R244). Which Loads are accepted is the spec's decision D8; the field that remembers one is log entry 3. -/
def Obligations.LoadPlacesTheImage : Prop :=
  ∀ (s : State) (bytes : List Byte),
    ((∃ t, s.load bytes = .ok t) ↔
      s.runState = .constructed ∧ s.loaded = false ∧ bytes.length ≤ 256) ∧
    (∀ t, s.load bytes = .ok t →
      (∀ (a : Byte) (h : a.toNat < bytes.length), t.readMem a = bytes[a.toNat]) ∧
      (∀ a : Byte, bytes.length ≤ a.toNat → t.readMem a = s.readMem a) ∧
      t.imageLen.val = bytes.length ∧ t.loaded = true ∧ s.regsKept t [] ∧ t.pc = s.pc ∧ t.fl = s.fl ∧
      t.runState = s.runState ∧ t.faultRecord = s.faultRecord ∧ t.out = s.out ∧ t.config = s.config)

/-- R246, whole: Run moves Constructed to Running and changes nothing else, and then cycles follow one another
for as long as the state is Running and no longer. -/
def Obligations.RunCyclesUntilHaltedOrFaulted : Prop :=
  (∀ s : State, s.runState = .constructed →
    s.startRun.runState = .running ∧ s.startRun.programView = s.programView ∧
    s.startRun.faultRecord = s.faultRecord ∧ s.startRun.imageLen = s.imageLen ∧
    s.startRun.out = s.out ∧ s.startRun.loaded = s.loaded ∧ s.startRun.config = s.config) ∧
  (∀ (s : State) (n : Nat),
    ((s.cycles n).runState = .running → step (s.cycles n) = .next (s.cycles (n + 1))) ∧
    ((s.cycles n).runState ≠ .running → s.cycles (n + 1) = s.cycles n)) ∧
  (∀ (s : State) (n : Nat), s.runState = .running → (s.cycles n).runState ≠ .constructed)

/-- Run in a state other than Constructed does nothing, and Run without a Load faults at once: end of image
at 0, or under `execute` the unknown opcode 0x00 (spec/70_reset_and_hazards.md R247, the spec's decision
D9; R204, D6, D7). That the record of the end of image holds no opcode is log entry 4. -/
def Obligations.RunWithoutLoadFaultsAtOnce : Prop :=
  (∀ s : State, s.runState ≠ .constructed → s.startRun = s) ∧
  State.reset.startRun.raisesFault ⟨.endOfImage, 0, none, some 0⟩ ∧
  State.raisesFault { State.reset.startRun with config := ⟨false, .execute⟩ }
    ⟨.unknownInstruction, 0, some 0x00, none⟩
end

