-- ==== Sys2Proof/Laws/Decode.lean ====
section
/-! SUPPORT. The opcode map and the operand bytes, once each way. -/

namespace Sys2Proof

/-- Every row is found by its own byte: no two rows share one. -/
@[simp] theorem Opcode.ofByte?_byte (o : Opcode) : Opcode.ofByte? o.byte = some o := by
  cases o <;> decide

/-- A byte finds only the row it is the byte of. -/
theorem Opcode.byte_of_ofByte? {b : Byte} {o : Opcode} (h : Opcode.ofByte? b = some o) : o.byte = b := by
  simpa using List.find?_some h

theorem Opcode.ofByte?_eq_some_iff {b : Byte} {o : Opcode} : Opcode.ofByte? b = some o ↔ b = o.byte :=
  ⟨fun h => (Opcode.byte_of_ofByte? h).symm, fun h => h ▸ Opcode.ofByte?_byte o⟩

@[simp] theorem regByte_toNat (r : Reg) : (regByte r).toNat = r.val := by
  have := r.isLt
  simp only [regByte, BitVec.toNat_ofNat]; omega

@[simp] theorem regOfByte?_regByte (r : Reg) : regOfByte? (regByte r) = some r := by
  have := r.isLt
  simp [regOfByte?, this]

theorem regOfByte?_eq_some_iff {b : Byte} {r : Reg} : regOfByte? b = some r ↔ b.toNat = r.val := by
  unfold regOfByte?
  split
  · rw [Option.some_inj, Fin.ext_iff]
  · have := r.isLt
    exact ⟨fun h => by simp at h, fun h => by omega⟩

theorem regOfByte?_eq_none_iff {b : Byte} : regOfByte? b = none ↔ 8 ≤ b.toNat := by
  unfold regOfByte?
  split <;> simp <;> omega

theorem regByte_eq_of_toNat {b : Byte} {r : Reg} (h : b.toNat = r.val) : regByte r = b := by
  apply BitVec.eq_of_toNat_eq; rw [regByte_toNat, h]

/-- A register operand that makes an instruction names a register. -/
theorem withReg_eq_instr_iff {b : Byte} {k : Reg → Assembled} {i : Instr} :
    withReg b k = .instr i ↔ ∃ r : Reg, b = regByte r ∧ k r = .instr i := by
  unfold withReg
  cases h : regOfByte? b with
  | none =>
    simp only [reduceCtorEq, false_iff, not_exists, not_and]
    rintro r rfl
    simp at h
  | some r =>
    have hb : b = regByte r := (regByte_eq_of_toNat (regOfByte?_eq_some_iff.mp h)).symm
    subst hb
    constructor
    · exact fun hk => ⟨r, rfl, hk⟩
    · rintro ⟨q, hq, hk⟩
      have : r = q := by simpa using congrArg regOfByte? hq
      exact this ▸ hk

theorem withReg_of_invalid {b : Byte} (h : 8 ≤ b.toNat) (k : Reg → Assembled) :
    withReg b k = .badRegister b := by
  simp [withReg, regOfByte?_eq_none_iff.mpr h]

theorem withReg_of_toNat {b : Byte} {r : Reg} (h : b.toNat = r.val) (k : Reg → Assembled) :
    withReg b k = k r := by
  simp [withReg, regOfByte?_eq_some_iff.mpr h]

@[simp] theorem withReg_regByte (r : Reg) (k : Reg → Assembled) : withReg (regByte r) k = k r := by
  simp [withReg]

/-- What assembling a row gives: an instruction of that row, well formed, whose operand bytes are the bytes
given, as many as the format has. -/
theorem Opcode.assemble_eq_instr {cfg : Config} {o : Opcode} {op1 op2 : Byte} {i : Instr}
    (h : o.assemble cfg op1 op2 = .instr i) :
    i.opcode = o ∧ i.wellFormed cfg = true ∧
      i.operandBytes = [op1, op2].take (o.operandCount cfg) := by
  cases o <;> simp only [Opcode.assemble] at h
  case hlt => cases h; exact ⟨rfl, rfl, rfl⟩
  case ret =>
    split at h <;> rename_i hc
    · obtain ⟨r, rfl, hr⟩ := withReg_eq_instr_iff.mp h
      cases hr
      simp [Instr.opcode, Instr.wellFormed, Instr.operandBytes, Opcode.operandCount, Opcode.format,
        Format.operandCount, hc]
    · cases h
      simp [Instr.opcode, Instr.wellFormed, Instr.operandBytes, Opcode.operandCount, Opcode.format,
        Format.operandCount, hc]
  case mul | add | cmp =>
    obtain ⟨a, rfl, ha⟩ := withReg_eq_instr_iff.mp h
    obtain ⟨b, rfl, hb⟩ := withReg_eq_instr_iff.mp ha
    cases hb
    exact ⟨rfl, rfl, rfl⟩
  all_goals
    obtain ⟨r, rfl, hr⟩ := withReg_eq_instr_iff.mp h
    cases hr
    exact ⟨rfl, rfl, rfl⟩

/-- A well-formed instruction has as many operand bytes as its row's format. -/
theorem Instr.operandBytes_length {cfg : Config} {i : Instr} (h : i.wellFormed cfg = true) :
    i.operandBytes.length = i.opcode.operandCount cfg := by
  cases i with
  | ret operand =>
    cases operand <;>
      simp_all [Instr.wellFormed, Instr.operandBytes, Instr.opcode, Opcode.operandCount, Opcode.format,
        Format.operandCount]
  | _ => rfl

end Sys2Proof
end

