-- ==== Sys2Proof/Laws/State.lean ====
section
/-! SUPPORT. What each update of the state leaves in each field, true by definition. -/

namespace Sys2Proof.Machine

/-! ### `writeReg` -/

@[simp] theorem State.writeReg_regs (s : State) (r : Reg) (v : Byte) : (s.writeReg r v).regs = s.regs.set r.val v := rfl
@[simp] theorem State.writeReg_pc (s : State) (r : Reg) (v : Byte) : (s.writeReg r v).pc = s.pc := rfl
@[simp] theorem State.writeReg_fl (s : State) (r : Reg) (v : Byte) : (s.writeReg r v).fl = s.fl := rfl
@[simp] theorem State.writeReg_mem (s : State) (r : Reg) (v : Byte) : (s.writeReg r v).mem = s.mem := rfl
@[simp] theorem State.writeReg_runState (s : State) (r : Reg) (v : Byte) : (s.writeReg r v).runState = s.runState := rfl
@[simp] theorem State.writeReg_faultRecord (s : State) (r : Reg) (v : Byte) : (s.writeReg r v).faultRecord = s.faultRecord := rfl
@[simp] theorem State.writeReg_imageLen (s : State) (r : Reg) (v : Byte) : (s.writeReg r v).imageLen = s.imageLen := rfl
@[simp] theorem State.writeReg_loaded (s : State) (r : Reg) (v : Byte) : (s.writeReg r v).loaded = s.loaded := rfl
@[simp] theorem State.writeReg_out (s : State) (r : Reg) (v : Byte) : (s.writeReg r v).out = s.out := rfl
@[simp] theorem State.writeReg_config (s : State) (r : Reg) (v : Byte) : (s.writeReg r v).config = s.config := rfl

/-! ### `writeMem` -/

@[simp] theorem State.writeMem_regs (s : State) (a v : Byte) : (s.writeMem a v).regs = s.regs := rfl
@[simp] theorem State.writeMem_pc (s : State) (a v : Byte) : (s.writeMem a v).pc = s.pc := rfl
@[simp] theorem State.writeMem_fl (s : State) (a v : Byte) : (s.writeMem a v).fl = s.fl := rfl
@[simp] theorem State.writeMem_mem (s : State) (a v : Byte) : (s.writeMem a v).mem = s.mem.write a.toNat v := rfl
@[simp] theorem State.writeMem_runState (s : State) (a v : Byte) : (s.writeMem a v).runState = s.runState := rfl
@[simp] theorem State.writeMem_faultRecord (s : State) (a v : Byte) : (s.writeMem a v).faultRecord = s.faultRecord := rfl
@[simp] theorem State.writeMem_imageLen (s : State) (a v : Byte) : (s.writeMem a v).imageLen = s.imageLen := rfl
@[simp] theorem State.writeMem_loaded (s : State) (a v : Byte) : (s.writeMem a v).loaded = s.loaded := rfl
@[simp] theorem State.writeMem_out (s : State) (a v : Byte) : (s.writeMem a v).out = s.out := rfl
@[simp] theorem State.writeMem_config (s : State) (a v : Byte) : (s.writeMem a v).config = s.config := rfl

/-! ### `setPc` -/

@[simp] theorem State.setPc_regs (s : State) (a : Byte) : (s.setPc a).regs = s.regs := rfl
@[simp] theorem State.setPc_pc (s : State) (a : Byte) : (s.setPc a).pc = a := rfl
@[simp] theorem State.setPc_fl (s : State) (a : Byte) : (s.setPc a).fl = s.fl := rfl
@[simp] theorem State.setPc_mem (s : State) (a : Byte) : (s.setPc a).mem = s.mem := rfl
@[simp] theorem State.setPc_runState (s : State) (a : Byte) : (s.setPc a).runState = s.runState := rfl
@[simp] theorem State.setPc_faultRecord (s : State) (a : Byte) : (s.setPc a).faultRecord = s.faultRecord := rfl
@[simp] theorem State.setPc_imageLen (s : State) (a : Byte) : (s.setPc a).imageLen = s.imageLen := rfl
@[simp] theorem State.setPc_loaded (s : State) (a : Byte) : (s.setPc a).loaded = s.loaded := rfl
@[simp] theorem State.setPc_out (s : State) (a : Byte) : (s.setPc a).out = s.out := rfl
@[simp] theorem State.setPc_config (s : State) (a : Byte) : (s.setPc a).config = s.config := rfl

/-! ### `advance` -/

@[simp] theorem State.advance_regs (s : State) (n : Nat) : (s.advance n).regs = s.regs := rfl
@[simp] theorem State.advance_pc (s : State) (n : Nat) : (s.advance n).pc = s.pc + BitVec.ofNat 8 n := rfl
@[simp] theorem State.advance_fl (s : State) (n : Nat) : (s.advance n).fl = s.fl := rfl
@[simp] theorem State.advance_mem (s : State) (n : Nat) : (s.advance n).mem = s.mem := rfl
@[simp] theorem State.advance_runState (s : State) (n : Nat) : (s.advance n).runState = s.runState := rfl
@[simp] theorem State.advance_faultRecord (s : State) (n : Nat) : (s.advance n).faultRecord = s.faultRecord := rfl
@[simp] theorem State.advance_imageLen (s : State) (n : Nat) : (s.advance n).imageLen = s.imageLen := rfl
@[simp] theorem State.advance_loaded (s : State) (n : Nat) : (s.advance n).loaded = s.loaded := rfl
@[simp] theorem State.advance_out (s : State) (n : Nat) : (s.advance n).out = s.out := rfl
@[simp] theorem State.advance_config (s : State) (n : Nat) : (s.advance n).config = s.config := rfl

/-! ### `setFl` -/

@[simp] theorem State.setFl_regs (s : State) (v : Byte) : (s.setFl v).regs = s.regs := rfl
@[simp] theorem State.setFl_pc (s : State) (v : Byte) : (s.setFl v).pc = s.pc := rfl
@[simp] theorem State.setFl_fl (s : State) (v : Byte) : (s.setFl v).fl = v := rfl
@[simp] theorem State.setFl_mem (s : State) (v : Byte) : (s.setFl v).mem = s.mem := rfl
@[simp] theorem State.setFl_runState (s : State) (v : Byte) : (s.setFl v).runState = s.runState := rfl
@[simp] theorem State.setFl_faultRecord (s : State) (v : Byte) : (s.setFl v).faultRecord = s.faultRecord := rfl
@[simp] theorem State.setFl_imageLen (s : State) (v : Byte) : (s.setFl v).imageLen = s.imageLen := rfl
@[simp] theorem State.setFl_loaded (s : State) (v : Byte) : (s.setFl v).loaded = s.loaded := rfl
@[simp] theorem State.setFl_out (s : State) (v : Byte) : (s.setFl v).out = s.out := rfl
@[simp] theorem State.setFl_config (s : State) (v : Byte) : (s.setFl v).config = s.config := rfl

/-! ### `emit` -/

@[simp] theorem State.emit_regs (s : State) (v : Byte) : (s.emit v).regs = s.regs := rfl
@[simp] theorem State.emit_pc (s : State) (v : Byte) : (s.emit v).pc = s.pc := rfl
@[simp] theorem State.emit_fl (s : State) (v : Byte) : (s.emit v).fl = s.fl := rfl
@[simp] theorem State.emit_mem (s : State) (v : Byte) : (s.emit v).mem = s.mem := rfl
@[simp] theorem State.emit_runState (s : State) (v : Byte) : (s.emit v).runState = s.runState := rfl
@[simp] theorem State.emit_faultRecord (s : State) (v : Byte) : (s.emit v).faultRecord = s.faultRecord := rfl
@[simp] theorem State.emit_imageLen (s : State) (v : Byte) : (s.emit v).imageLen = s.imageLen := rfl
@[simp] theorem State.emit_loaded (s : State) (v : Byte) : (s.emit v).loaded = s.loaded := rfl
@[simp] theorem State.emit_out (s : State) (v : Byte) : (s.emit v).out = s.out ++ [v] := rfl
@[simp] theorem State.emit_config (s : State) (v : Byte) : (s.emit v).config = s.config := rfl

/-! ### `halt` -/

@[simp] theorem State.halt_regs (s : State) : (s.halt).regs = s.regs := rfl
@[simp] theorem State.halt_pc (s : State) : (s.halt).pc = s.pc := rfl
@[simp] theorem State.halt_fl (s : State) : (s.halt).fl = s.fl := rfl
@[simp] theorem State.halt_mem (s : State) : (s.halt).mem = s.mem := rfl
@[simp] theorem State.halt_runState (s : State) : (s.halt).runState = .halted := rfl
@[simp] theorem State.halt_faultRecord (s : State) : (s.halt).faultRecord = s.faultRecord := rfl
@[simp] theorem State.halt_imageLen (s : State) : (s.halt).imageLen = s.imageLen := rfl
@[simp] theorem State.halt_loaded (s : State) : (s.halt).loaded = s.loaded := rfl
@[simp] theorem State.halt_out (s : State) : (s.halt).out = s.out := rfl
@[simp] theorem State.halt_config (s : State) : (s.halt).config = s.config := rfl

/-! ### `raiseFault` -/

@[simp] theorem State.raiseFault_regs (s : State) (r : FaultRecord) : (s.raiseFault r).regs = s.regs := rfl
@[simp] theorem State.raiseFault_pc (s : State) (r : FaultRecord) : (s.raiseFault r).pc = s.pc := rfl
@[simp] theorem State.raiseFault_fl (s : State) (r : FaultRecord) : (s.raiseFault r).fl = s.fl := rfl
@[simp] theorem State.raiseFault_mem (s : State) (r : FaultRecord) : (s.raiseFault r).mem = s.mem := rfl
@[simp] theorem State.raiseFault_runState (s : State) (r : FaultRecord) : (s.raiseFault r).runState = .faulted := rfl
@[simp] theorem State.raiseFault_faultRecord (s : State) (r : FaultRecord) : (s.raiseFault r).faultRecord = some r := rfl
@[simp] theorem State.raiseFault_imageLen (s : State) (r : FaultRecord) : (s.raiseFault r).imageLen = s.imageLen := rfl
@[simp] theorem State.raiseFault_loaded (s : State) (r : FaultRecord) : (s.raiseFault r).loaded = s.loaded := rfl
@[simp] theorem State.raiseFault_out (s : State) (r : FaultRecord) : (s.raiseFault r).out = s.out := rfl
@[simp] theorem State.raiseFault_config (s : State) (r : FaultRecord) : (s.raiseFault r).config = s.config := rfl

end Sys2Proof.Machine
end

