-- ==== Sys2Proof/Laws/Memory.lean ====
section
/-! SUPPORT. Memory: a read after a write, and the canonical form kept. The read laws hold of every list of
cells, canonical or not. -/

namespace Sys2Proof.Machine

@[simp] theorem Memory.read_nil (a : Nat) : Memory.read [] a = Memory.unlisted := rfl

@[simp] theorem Memory.read_cons (c : Host.Cell) (m : Memory) (a : Nat) :
    Memory.read (c :: m) a = if c.1 = a then c.2 else Memory.read m a := rfl

theorem Memory.read_erase (m : Memory) (a b : Nat) :
    (m.erase a).read b = if b = a then Memory.unlisted else m.read b := by
  induction m with
  | nil => simp [Memory.erase]
  | cons c m ih =>
    by_cases h : c.1 = a
    · have hf : Memory.erase (c :: m) a = Memory.erase m a := by simp [Memory.erase, h]
      rw [hf, ih]
      split <;> rename_i hb
      · rfl
      · simp [h, Ne.symm hb]
    · have hf : Memory.erase (c :: m) a = c :: Memory.erase m a := by simp [Memory.erase, h]
      rw [hf, Memory.read_cons, Memory.read_cons, ih]
      by_cases hb : b = a
      · simp [hb, h]
      · simp [hb]

/-- A cell of an address the memory has no cell for, once inserted, is read at its address alone. -/
theorem Memory.read_insert (m : Memory) (a b : Nat) (v : Byte) (h : ∀ c ∈ m, c.1 ≠ a) :
    (m.insert (a, v)).read b = if b = a then v else m.read b := by
  induction m with
  | nil => simp [Memory.insert, eq_comm]
  | cons c m ih =>
    have hc : c.1 ≠ a := h c (by simp)
    have hm := ih (fun d hd => h d (by simp [hd]))
    simp only [Memory.insert]
    split
    · simp [eq_comm]
    · rw [Memory.read_cons, hm, Memory.read_cons]
      by_cases hb : b = a
      · simp [hb, hc]
      · simp [hb]

theorem Memory.fst_ne_of_mem_erase {m : Memory} {a : Nat} {c : Host.Cell} (h : c ∈ m.erase a) :
    c.1 ≠ a := by
  simpa using (List.mem_filter.mp h).2

/-- A read after a write (R52, R53): the value at the address written, every other address as it was. -/
theorem Memory.read_write (m : Memory) (a b : Nat) (v : Byte) :
    (m.write a v).read b = if b = a then v else m.read b := by
  unfold Memory.write
  split
  · rename_i h; rw [Memory.read_erase, h]
  · rw [Memory.read_insert _ _ _ _ (fun _ h => Memory.fst_ne_of_mem_erase h), Memory.read_erase]
    split <;> rfl

theorem Memory.wf_nil : Memory.wf [] := by simp [Memory.wf]

theorem Memory.wf_erase {m : Memory} (h : m.wf) (a : Nat) : (m.erase a).wf :=
  ⟨h.1.sublist List.filter_sublist, fun c hc => h.2 c (List.mem_of_mem_filter hc)⟩

theorem Memory.mem_insert {m : Memory} {c d : Host.Cell} : d ∈ m.insert c ↔ d = c ∨ d ∈ m := by
  induction m with
  | nil => simp [Memory.insert]
  | cons e m ih =>
    simp only [Memory.insert]
    split
    · simp
    · simp only [List.mem_cons, ih]; tauto

theorem Memory.wf_insert {m : Memory} (h : m.wf) {a : Nat} {v : Byte} (ha : a < 256)
    (hv : v ≠ Memory.unlisted) (hm : ∀ c ∈ m, c.1 ≠ a) : (m.insert (a, v)).wf := by
  refine ⟨?_, fun c hc => ?_⟩
  · obtain ⟨hp, -⟩ := h
    induction m with
    | nil => simp [Memory.insert]
    | cons d m ih =>
      have hd : d.1 ≠ a := hm d (by simp)
      obtain ⟨hdm, hpm⟩ := List.pairwise_cons.mp hp
      simp only [Memory.insert]
      split
      · rename_i hlt
        refine List.pairwise_cons.mpr ⟨fun e he => ?_, hp⟩
        rcases List.mem_cons.mp he with rfl | he
        · exact hlt
        · exact lt_trans hlt (hdm e he)
      · rename_i hlt
        refine List.pairwise_cons.mpr ⟨fun e he => ?_, ih (fun c hc => hm c (by simp [hc])) hpm⟩
        rcases Memory.mem_insert.mp he with rfl | he
        · simp only at hlt ⊢; omega
        · exact hdm e he
  · rcases Memory.mem_insert.mp hc with rfl | hc
    · exact ⟨ha, hv⟩
    · exact h.2 c hc

/-- A write inside the 256 cells keeps the canonical form. -/
theorem Memory.wf_write {m : Memory} (h : m.wf) {a : Nat} (ha : a < 256) (v : Byte) :
    (m.write a v).wf := by
  unfold Memory.write
  split
  · exact Memory.wf_erase h a
  · rename_i hv
    exact Memory.wf_insert (Memory.wf_erase h a) ha hv fun _ hc => Memory.fst_ne_of_mem_erase hc

/-- MemRead after MemWrite (R52, R53). -/
theorem State.readMem_writeMem (s : State) (a v b : Byte) :
    (s.writeMem a v).readMem b = if b = a then v else s.readMem b := by
  simp only [State.readMem, State.writeMem_mem, Memory.read_write, BitVec.toNat_inj]

theorem State.wf_writeMem {s : State} (h : s.mem.wf) (a v : Byte) : (s.writeMem a v).mem.wf :=
  Memory.wf_write h a.isLt v

/-- What a run of byte writes from `a` touches: memory alone. -/
theorem State.writeBytes_eq (s : State) (a : Byte) (bs : List Byte) :
    s.writeBytes a bs = { s with mem := (s.writeBytes a bs).mem } := by
  induction bs generalizing s a with
  | nil => rfl
  | cons b bs ih => rw [State.writeBytes, ih]; rfl

theorem State.wf_writeBytes {s : State} (h : s.mem.wf) (a : Byte) (bs : List Byte) :
    (s.writeBytes a bs).mem.wf := by
  induction bs generalizing s a with
  | nil => exact h
  | cons b bs ih => exact ih (State.wf_writeMem h a b) (a + 1)

end Sys2Proof.Machine
end

