-- ==== Sys2Proof/Laws/PerInstr.lean ====
section
/-! SUPPORT. A statement made per instruction: an encoding is 1 to 3 bytes, opens with the byte of the
instruction's own row, and has the length the instruction is said to have (R70, R71). -/

namespace Sys2Proof.Laws.EncodedForm

/-- The encoding opens with the byte by which the opcode map finds the instruction's row, and its length is
the instruction's, 1 to 3. -/
def Statement (i : Instr) : Prop :=
  (encode i).head?.bind Opcode.ofByte? = some i.opcode ∧ (encode i).length = i.length ∧
    1 ≤ i.length ∧ i.length ≤ maxLength

/-- Every part but the upper bound holds of any instruction. -/
theorem of_length_le {i : Instr} (h : i.length ≤ maxLength) : Statement i :=
  ⟨by simp [encode], by simp [encode, Instr.length, Nat.add_comm], by simp [Instr.length], h⟩

theorem ldi (reg : Reg) (imm : Byte) : Statement (.ldi reg imm) := of_length_le (Nat.le_of_ble_eq_true rfl)
theorem prn (reg : Reg) : Statement (.prn reg) := of_length_le (Nat.le_of_ble_eq_true rfl)
theorem hlt : Statement .hlt := of_length_le (Nat.le_of_ble_eq_true rfl)
theorem mul (regA regB : Reg) : Statement (.mul regA regB) := of_length_le (Nat.le_of_ble_eq_true rfl)
theorem add (regA regB : Reg) : Statement (.add regA regB) := of_length_le (Nat.le_of_ble_eq_true rfl)
theorem cmp (regA regB : Reg) : Statement (.cmp regA regB) := of_length_le (Nat.le_of_ble_eq_true rfl)
theorem push (reg : Reg) : Statement (.push reg) := of_length_le (Nat.le_of_ble_eq_true rfl)
theorem pop (reg : Reg) : Statement (.pop reg) := of_length_le (Nat.le_of_ble_eq_true rfl)
theorem call (reg : Reg) : Statement (.call reg) := of_length_le (Nat.le_of_ble_eq_true rfl)
theorem ret (operand : Option Reg) : Statement (.ret operand) :=
  of_length_le (by cases operand <;> exact Nat.le_of_ble_eq_true rfl)
theorem jmp (reg : Reg) : Statement (.jmp reg) := of_length_le (Nat.le_of_ble_eq_true rfl)
theorem jeq (reg : Reg) : Statement (.jeq reg) := of_length_le (Nat.le_of_ble_eq_true rfl)
theorem jne (reg : Reg) : Statement (.jne reg) := of_length_le (Nat.le_of_ble_eq_true rfl)

end Sys2Proof.Laws.EncodedForm
end

