-- ==== Sys2Proof/Laws/Registers.lean ====
section
/-! SUPPORT. The register file, the stack pointer, and what each update leaves readable. -/

namespace Sys2Proof.Machine

/-- A register read after a register write: the registers share no storage (R20, R23). -/
theorem State.readReg_writeReg (s : State) (r q : Reg) (v : Byte) :
    (s.writeReg r v).readReg q = if q = r then v else s.readReg q := by
  simp only [State.readReg, State.writeReg_regs, Vector.getElem_set, Fin.val_inj, eq_comm]

@[simp] theorem State.readReg_writeReg_self (s : State) (r : Reg) (v : Byte) :
    (s.writeReg r v).readReg r = v := by
  simp [State.readReg_writeReg]

theorem State.readReg_writeReg_ne (s : State) {r q : Reg} (h : q ≠ r) (v : Byte) :
    (s.writeReg r v).readReg q = s.readReg q := by
  simp [State.readReg_writeReg, h]

/-! ### Reads through an update of something else -/

@[simp] theorem State.writeMem_readReg (s : State) (a v : Byte) (q : Reg) :
    (s.writeMem a v).readReg q = s.readReg q := rfl
@[simp] theorem State.setPc_readReg (s : State) (a : Byte) (q : Reg) : (s.setPc a).readReg q = s.readReg q := rfl
@[simp] theorem State.advance_readReg (s : State) (n : Nat) (q : Reg) :
    (s.advance n).readReg q = s.readReg q := rfl
@[simp] theorem State.setFl_readReg (s : State) (v : Byte) (q : Reg) : (s.setFl v).readReg q = s.readReg q := rfl
@[simp] theorem State.emit_readReg (s : State) (v : Byte) (q : Reg) : (s.emit v).readReg q = s.readReg q := rfl
@[simp] theorem State.halt_readReg (s : State) (q : Reg) : s.halt.readReg q = s.readReg q := rfl
@[simp] theorem State.raiseFault_readReg (s : State) (r : FaultRecord) (q : Reg) :
    (s.raiseFault r).readReg q = s.readReg q := rfl

@[simp] theorem State.writeReg_readMem (s : State) (r : Reg) (v a : Byte) :
    (s.writeReg r v).readMem a = s.readMem a := rfl
@[simp] theorem State.setPc_readMem (s : State) (b a : Byte) : (s.setPc b).readMem a = s.readMem a := rfl
@[simp] theorem State.advance_readMem (s : State) (n : Nat) (a : Byte) :
    (s.advance n).readMem a = s.readMem a := rfl
@[simp] theorem State.setFl_readMem (s : State) (v a : Byte) : (s.setFl v).readMem a = s.readMem a := rfl
@[simp] theorem State.emit_readMem (s : State) (v a : Byte) : (s.emit v).readMem a = s.readMem a := rfl
@[simp] theorem State.halt_readMem (s : State) (a : Byte) : s.halt.readMem a = s.readMem a := rfl
@[simp] theorem State.raiseFault_readMem (s : State) (r : FaultRecord) (a : Byte) :
    (s.raiseFault r).readMem a = s.readMem a := rfl

/-! ### The stack pointer -/

theorem State.sp_eq (s : State) : s.sp = s.readReg 7 := rfl

theorem State.pushAddr_eq (s : State) : s.pushAddr = s.sp - 1 := rfl

/-- SP after a decrement, and every other register (R140). -/
theorem State.decSp_readReg (s : State) (q : Reg) :
    s.decSp.readReg q = if q = 7 then s.sp - 1 else s.readReg q :=
  State.readReg_writeReg s spReg q s.pushAddr

/-- SP after an increment, and every other register (R142). -/
theorem State.incSp_readReg (s : State) (q : Reg) :
    s.incSp.readReg q = if q = 7 then s.sp + 1 else s.readReg q :=
  State.readReg_writeReg s spReg q (s.sp + 1)

@[simp] theorem State.decSp_sp (s : State) : s.decSp.sp = s.sp - 1 := by
  simp [State.sp_eq, State.decSp_readReg]

@[simp] theorem State.incSp_sp (s : State) : s.incSp.sp = s.sp + 1 := by
  simp [State.sp_eq, State.incSp_readReg]

@[simp] theorem State.decSp_readMem (s : State) (a : Byte) : s.decSp.readMem a = s.readMem a := rfl
@[simp] theorem State.incSp_readMem (s : State) (a : Byte) : s.incSp.readMem a = s.readMem a := rfl

/-- A decrement of SP changes the register file alone. -/
theorem State.decSp_eq (s : State) : s.decSp = { s with regs := s.regs.set 7 (s.sp - 1) } := rfl

/-- An increment of SP changes the register file alone. -/
theorem State.incSp_eq (s : State) : s.incSp = { s with regs := s.regs.set 7 (s.sp + 1) } := rfl

end Sys2Proof.Machine
end

