-- ==== Sys2Proof/Laws/Step.lean ====
section
/-! SUPPORT. What fetching and one step can do, said once. -/

namespace Sys2Proof.Machine

/-- The check of R84 in the terms of claims. -/
theorem State.pastImage_eq_false_iff {s : State} {a : Byte} : s.pastImage a = false ↔ s.fetchable a := by
  unfold State.pastImage State.fetchable
  cases s.config.fetchPastImage <;> simp

theorem State.pastImage_eq_true_iff {s : State} {a : Byte} : s.pastImage a = true ↔ ¬ s.fetchable a := by
  rw [← State.pastImage_eq_false_iff, Bool.not_eq_false]

@[simp] theorem State.byteAddr_zero (s : State) : s.byteAddr 0 = s.pc := by simp [State.byteAddr]
@[simp] theorem State.byteAddr_one (s : State) : s.byteAddr 1 = s.pc + 1 := rfl
@[simp] theorem State.byteAddr_two (s : State) : s.byteAddr 2 = s.pc + 2 := rfl

/-- The first operand address the check fails at, for the operand counts that occur. -/
theorem State.operandPastImage_zero (s : State) : s.operandPastImage 0 = none := rfl

theorem State.operandPastImage_one (s : State) :
    s.operandPastImage 1 = if s.pastImage (s.pc + 1) then some (s.pc + 1) else none := by
  simp [State.operandPastImage, List.range_succ, List.find?_cons]
  split <;> simp_all

theorem State.operandPastImage_two (s : State) :
    s.operandPastImage 2 =
      if s.pastImage (s.pc + 1) then some (s.pc + 1)
      else if s.pastImage (s.pc + 2) then some (s.pc + 2) else none := by
  simp [State.operandPastImage, List.range_succ, List.find?_cons]
  split <;> simp_all
  split <;> simp_all

/-- No operand address fails the check exactly when every one may be fetched. -/
theorem State.operandPastImage_eq_none_iff {s : State} {n : Nat} :
    s.operandPastImage n = none ↔ ∀ k, 1 ≤ k → k ≤ n → s.fetchable (s.byteAddr k) := by
  simp only [State.operandPastImage, List.find?_eq_none, List.mem_map, List.mem_range,
    Bool.not_eq_true, State.pastImage_eq_false_iff]
  constructor
  · intro h k h1 h2
    exact h _ ⟨k - 1, by omega, by congr 1; omega⟩
  · rintro h a ⟨k, hk, rfl⟩
    exact h _ (by omega) (by omega)

/-- The opcode byte fetched and known: what is left is the row's operands. -/
theorem State.fetch_of_row {s : State} {o : Opcode} (h : s.fetchable s.pc) (ho : s.readMem s.pc = o.byte) :
    s.fetch = s.fetchOperands o.byte o := by
  simp [State.fetch, State.pastImage_eq_false_iff.mpr h, ho]

/-- An operand address at which the check fails gives EndOfImage (R84). -/
theorem State.fetchOperands_of_past {s : State} {opc a : Byte} {o : Opcode}
    (h : s.operandPastImage (o.operandCount s.config) = some a) :
    s.fetchOperands opc o = .raises ⟨.endOfImage, s.pc, some opc, some a⟩ := by
  simp [State.fetchOperands, h]

/-- Operands that may all be fetched and make an instruction. -/
theorem State.fetchOperands_of_instr {s : State} {opc : Byte} {o : Opcode} {i : Instr}
    (h : s.operandPastImage (o.operandCount s.config) = none)
    (ha : o.assemble s.config (s.instrByte 1) (s.instrByte 2) = .instr i) :
    s.fetchOperands opc o = .instr i := by
  simp [State.fetchOperands, h, ha]

/-- Operands that may all be fetched, one of which names no register (R76). -/
theorem State.fetchOperands_of_badRegister {s : State} {opc v : Byte} {o : Opcode}
    (h : s.operandPastImage (o.operandCount s.config) = none)
    (ha : o.assemble s.config (s.instrByte 1) (s.instrByte 2) = .badRegister v) :
    s.fetchOperands opc o = .raises ⟨.invalidRegister, s.pc, some opc, some v⟩ := by
  simp [State.fetchOperands, h, ha]

/-- What fetching an instruction says: every check passed, and the row assembled. -/
theorem State.fetch_eq_instr_iff {s : State} {i : Instr} :
    s.fetch = .instr i ↔
      s.fetchable s.pc ∧ ∃ o, Opcode.ofByte? (s.readMem s.pc) = some o ∧
        (∀ k, 1 ≤ k → k ≤ o.operandCount s.config → s.fetchable (s.byteAddr k)) ∧
        o.assemble s.config (s.instrByte 1) (s.instrByte 2) = .instr i := by
  unfold State.fetch
  split
  · rename_i h
    simp [State.pastImage_eq_true_iff.mp h]
  · rename_i h
    rw [Bool.not_eq_true, State.pastImage_eq_false_iff] at h
    split
    · rename_i hn; simp [hn]
    · rename_i o ho
      simp only [h, true_and, ho, Option.some_inj]
      unfold State.fetchOperands
      constructor
      · intro hf
        split at hf
        · cases hf
        · rename_i hp
          refine ⟨o, rfl, State.operandPastImage_eq_none_iff.mp hp, ?_⟩
          split at hf
          · cases hf; assumption
          · cases hf
      · rintro ⟨o', rfl, hk, ha⟩
        rw [State.operandPastImage_eq_none_iff.mpr hk]
        simp [ha]

/-- What a step that goes on has done: executed the instruction fetched, or taken the fault of the first
check that failed. -/
theorem step_eq_next_iff {s t : State} :
    step s = .next t ↔ s.runState = .running ∧
      ((∃ i, s.fetch = .instr i ∧ exec i s = .next t) ∨
        ∃ r, s.fetch = .raises r ∧ t = s.raiseFault r) := by
  unfold step
  cases hs : s.runState <;> simp
  cases hf : s.fetch <;> simp [eq_comm]

/-- A step in Running whose fetch gives an instruction executes it. -/
theorem step_of_fetch {s : State} {i : Instr} (hs : s.runState = .running) (hf : s.fetch = .instr i) :
    step s = exec i s := by
  simp [step, hs, hf]

/-- A step in Running whose fetch fails takes that fault. -/
theorem step_of_raises {s : State} {r : FaultRecord} (hs : s.runState = .running)
    (hf : s.fetch = .raises r) : step s = .next (s.raiseFault r) := by
  simp [step, hs, hf]

/-- Raising a fault is the entry of R200. -/
theorem State.faultedFrom_raiseFault (s : State) (r : FaultRecord) : s.faultedFrom (s.raiseFault r) r := by
  refine ⟨rfl, rfl, ?_, ?_, rfl, rfl, rfl, rfl, rfl, rfl⟩
  · intro q _; rfl
  · intro a _; rfl

theorem State.raisesFault_of_fetch {s : State} {r : FaultRecord} (hs : s.runState = .running)
    (hf : s.fetch = .raises r) : s.raisesFault r :=
  ⟨_, step_of_raises hs hf, s.faultedFrom_raiseFault r⟩

end Sys2Proof.Machine
end

