-- ==== Sys2Proof/Tests/Slice0.lean ====
section
/-! SUPPORT. Tests: ill-formed instructions refused, words written out from the opcode map, one-step vectors
of spec/95_test_vectors.md, and for each statement with hypotheses a state and operands that meet them. -/

namespace Sys2Proof.Tests

open Sys2Proof.Machine Sys2Proof.Claims

/-! ### Helpers -/

/-- The parameters with RET in format R. -/
def compat : Config := { retWritesRegister := true, fetchPastImage := .fault }

/-- A running core with `bs` at `pc`, image length `len`. -/
def coreAt (pc : Byte) (bs : List Byte) (len : Fin 257 := 256) : State :=
  { (State.reset.setPc pc).writeBytes pc bs with runState := .running, imageLen := len, loaded := true }

/-- The same core under `RET_WRITES_REGISTER = true`. -/
def compatAt (pc : Byte) (bs : List Byte) (len : Fin 257 := 256) : State :=
  { coreAt pc bs len with config := compat }

/-- The next state, when there is one. -/
def after : Host.Outcome State Fault Refusal → Option State
  | .next t => some t
  | .fault _ => none
  | .refused _ => none

/-- The fault record a step leaves. -/
def faultOf (s : State) : Option FaultRecord := (after (step s)).bind State.faultRecord

/-! ### Well-formedness (R70, R166) -/

theorem test_wellFormed_refuses_ret_operand_by_default :
    (Instr.ret (some 2)).wellFormed .default = false := by decide

theorem test_wellFormed_refuses_ret_without_operand_under_compat :
    (Instr.ret none).wellFormed compat = false := by decide

theorem test_wellFormed_accepts_the_matching_ret :
    (Instr.ret none).wellFormed .default = true ∧ (Instr.ret (some 7)).wellFormed compat = true := by decide

/-! ### Decoding: every row of R72, bit for bit -/

theorem test_decode_ldi : decode .default [0b10000010, 0b00000111, 0b11111111] = .instr (.ldi 7 0xFF) [] := by decide
theorem test_decode_prn : decode .default [0b01000111, 0b00000101] = .instr (.prn 5) [] := by decide
theorem test_decode_hlt : decode .default [0b00000001] = .instr .hlt [] := by decide
theorem test_decode_mul : decode .default [0b10100010, 0b00000000, 0b00000001] = .instr (.mul 0 1) [] := by decide
theorem test_decode_add : decode .default [0b10100000, 0b00000010, 0b00000001] = .instr (.add 2 1) [] := by decide
theorem test_decode_cmp : decode .default [0b10100111, 0b00000001, 0b00000000] = .instr (.cmp 1 0) [] := by decide
theorem test_decode_push : decode .default [0b01000101, 0b00000111] = .instr (.push 7) [] := by decide
theorem test_decode_pop : decode .default [0b01000110, 0b00000010] = .instr (.pop 2) [] := by decide
theorem test_decode_call : decode .default [0b01010000, 0b00000001] = .instr (.call 1) [] := by decide
theorem test_decode_ret : decode .default [0b00010001, 0b00001001] = .instr (.ret none) [0x09] := by decide
theorem test_decode_ret_compat : decode compat [0b00010001, 0b00000010] = .instr (.ret (some 2)) [] := by decide
theorem test_decode_jmp : decode .default [0b01010100, 0b00000011] = .instr (.jmp 3) [] := by decide
theorem test_decode_jeq : decode .default [0b01010101, 0b00000010] = .instr (.jeq 2) [] := by decide
theorem test_decode_jne : decode .default [0b01010110, 0b00000011] = .instr (.jne 3) [] := by decide

/-- R78, vectors D2 and D3: bytes that only look like an opcode. -/
theorem test_decode_unknown :
    decode .default [0xA1, 0, 0] = .reject (.unknownInstruction 0xA1) ∧
    decode .default [0x10] = .reject (.unknownInstruction 0x10) := by decide

/-- R76: 8 names no register, operand 1 is reported before operand 2 (R207). -/
theorem test_decode_invalid_register :
    decode .default [0xA0, 0x00, 0x08] = .reject (.invalidRegister 0x08) ∧
    decode .default [0xA7, 0x0A, 0x09] = .reject (.invalidRegister 0x0A) := by decide

theorem test_decode_truncated : decode .default [0x82, 0x09] = .reject .truncated := by decide

/-- The table's numbering: byte k is bits 8k+7 to 8k. -/
theorem test_decodeTableWord :
    decodeTableWord 24 0x080082 = some (.ldi 0 8) ∧ decodeTableWord 8 0x11 = some (.ret none) := by decide

theorem test_withFetchWord_runs_first :
    (after (step (State.reset.withFetchWord 24 0x080082))).map (fun t => (t.readReg 0, t.pc)) = some (8, 3) := by
  decide

/-! ### One step of each instruction (spec/95_test_vectors.md, part 2) -/

/-- L2: the operands wrap from 0xFF to 0x00. -/
theorem test_ldi_operands_wrap :
    (after (step (coreAt 0xFE [0x82, 0x00, 0x2A]))).map (fun t => (t.readReg 0, t.pc)) = some (0x2A, 0x01) := by
  decide

/-- L4. -/
theorem test_ldi_invalid_register :
    faultOf (coreAt 0 [0x82, 0x08, 0x05]) = some ⟨.invalidRegister, 0, some 0x82, some 0x08⟩ := by decide

/-- L6. -/
theorem test_prn_255 :
    (after (step ((coreAt 4 [0x47, 0x05]).writeReg 5 255))).map (fun t => (t.out, t.pc)) = some ([255], 6) := by
  decide

/-- L8. -/
theorem test_prn_invalid_register :
    (after (step (coreAt 0 [0x47, 0x09]))).map (fun t => (t.out, t.faultRecord)) =
      some ([], some ⟨.invalidRegister, 0, some 0x47, some 0x09⟩) := by decide

/-- L10. -/
theorem test_hlt_wraps :
    (after (step (coreAt 0xFF [0x01]))).map (fun t => (t.pc, t.runState)) = some (0x00, .halted) := by decide

/-- M1, and FL kept. -/
theorem test_mul_wraps :
    (after (exec (.mul 0 1) ((((coreAt 0 []).writeReg 0 250).writeReg 1 10).setFl 2))).map
      (fun t => (t.readReg 0, t.fl, t.pc)) = some (196, 2, 3) := by decide

/-- M6. -/
theorem test_mul_same_register :
    (after (exec (.mul 2 2) ((coreAt 0 []).writeReg 2 20))).map (fun t => t.readReg 2) = some 144 := by decide

/-- A1, and FL kept. -/
theorem test_add_wraps :
    (after (exec (.add 0 1) ((((coreAt 0 []).writeReg 0 250).writeReg 1 10).setFl 2))).map
      (fun t => (t.readReg 0, t.fl, t.pc)) = some (4, 2, 3) := by decide

/-- A6. -/
theorem test_add_same_register :
    (after (exec (.add 3 3) ((coreAt 0 []).writeReg 3 128))).map (fun t => t.readReg 3) = some 0 := by decide

/-- C6: a signed comparison would set L. -/
theorem test_cmp_unsigned :
    (after (exec (.cmp 0 1) (((coreAt 0 []).writeReg 0 128).writeReg 1 127))).map (fun t => t.fl) =
      some 0b010 := by decide

/-- C8: the old FL is overwritten. -/
theorem test_cmp_overwrites :
    (after (exec (.cmp 0 1) ((((coreAt 0 []).writeReg 0 7).writeReg 1 7).setFl 4))).map (fun t => t.fl) =
      some 0b001 := by decide

/-- S2: the decremented SP is stored. -/
theorem test_push_sp :
    (after (exec (.push 7) (coreAt 0 []))).map (fun t => (t.sp, t.readMem 0xF3, t.pc)) =
      some (0xF3, 0xF3, 2) := by decide

/-- S3. -/
theorem test_push_wraps :
    (after (exec (.push 1) (((coreAt 0 []).writeReg 7 0).writeReg 1 0x55))).map
      (fun t => (t.sp, t.readMem 0xFF)) = some (0xFF, 0x55) := by decide

/-- S5: loaded, then incremented. -/
theorem test_pop_sp :
    (after (exec (.pop 7) (((coreAt 0 []).writeReg 7 0xF3).writeMem 0xF3 0x10))).map
      (fun t => (t.sp, t.pc)) = some (0x11, 2) := by decide

/-- S6. -/
theorem test_pop_wraps :
    (after (exec (.pop 0) (((coreAt 0 []).writeReg 7 0xFF).writeMem 0xFF 0x99))).map
      (fun t => (t.readReg 0, t.sp)) = some (0x99, 0x00) := by decide

/-- T2: the jump is to the decremented SP. -/
theorem test_call_sp :
    (after (exec (.call 7) (coreAt 0x10 []))).map (fun t => (t.sp, t.readMem 0xF3, t.pc)) =
      some (0xF3, 0x12, 0xF3) := by decide

/-- T3: the return address wraps. -/
theorem test_call_return_address_wraps :
    (after (exec (.call 0) ((coreAt 0xFE []).writeReg 0 0x20))).map (fun t => (t.readMem 0xF3, t.pc)) =
      some (0x00, 0x20) := by decide

/-- T9: the byte after RET is not fetched by default. -/
theorem test_ret_reads_no_operand :
    (after (step (((coreAt 0 [0x11, 0x09]).writeReg 7 0xF3).writeMem 0xF3 0x08))).map
      (fun t => (t.pc, t.sp)) = some (0x08, 0xF4) := by decide

/-- T6. -/
theorem test_ret_compat_writes_register :
    (after (step (((compatAt 0 [0x11, 0x02]).writeReg 7 0xF3).writeMem 0xF3 0x08))).map
      (fun t => (t.readReg 2, t.pc, t.sp)) = some (0x08, 0x08, 0xF4) := by decide

/-- T7 and T8. -/
theorem test_ret_compat_faults :
    faultOf (compatAt 0 [0x11, 0x07]) = some ⟨.compatRetSP, 0, some 0x11, some 7⟩ ∧
    faultOf (compatAt 0 [0x11, 0x09]) = some ⟨.invalidRegister, 0, some 0x11, some 9⟩ := by decide

/-- T11. -/
theorem test_jmp_sp : (after (exec (.jmp 7) (coreAt 0 []))).map (fun t => t.pc) = some 0xF4 := by decide

/-- T12 and T15. -/
theorem test_jeq :
    (after (exec (.jeq 2) (((coreAt 0x0C []).writeReg 2 0x11).setFl 1))).map (fun t => t.pc) = some 0x11 ∧
    (after (exec (.jeq 2) (((coreAt 0x0C []).writeReg 2 0x11).setFl 4))).map (fun t => t.pc) = some 0x0E := by
  decide

/-- T20: an untaken jump still checks its operand. -/
theorem test_jeq_untaken_invalid_register :
    faultOf (coreAt 0 [0x55, 0x09]) = some ⟨.invalidRegister, 0, some 0x55, some 9⟩ := by decide

/-- T16 and T17. -/
theorem test_jne :
    (after (exec (.jne 3) (((coreAt 0x14 []).writeReg 3 0x0C).setFl 1))).map (fun t => t.pc) = some 0x16 ∧
    (after (exec (.jne 3) ((coreAt 0x14 []).writeReg 3 0x0C))).map (fun t => t.pc) = some 0x0C := by decide

/-! ### Fault order and end of image (part 2.5) -/

/-- D6 and D7: the operand fetch is checked before the register. -/
theorem test_end_of_image_before_register :
    faultOf (coreAt 0 [0x82] 1) = some ⟨.endOfImage, 0, some 0x82, some 1⟩ ∧
    faultOf (coreAt 0 [0x82, 0x09] 2) = some ⟨.endOfImage, 0, some 0x82, some 2⟩ := by decide

/-- D8: under `execute` the byte past the image is read. -/
theorem test_execute_past_image :
    faultOf { coreAt 0 [0x82, 0x09] 2 with config := ⟨false, .execute⟩ } =
      some ⟨.invalidRegister, 0, some 0x82, some 9⟩ := by decide

/-- D9 and D10: Run without an image. -/
theorem test_run_without_image :
    faultOf State.reset.startRun = some ⟨.endOfImage, 0, none, some 0⟩ ∧
    faultOf { State.reset.startRun with config := ⟨false, .execute⟩ } =
      some ⟨.unknownInstruction, 0, some 0, none⟩ := by decide

/-- The numbers of R201. -/
theorem test_fault_numbers :
    [FaultKind.unknownInstruction, .invalidRegister, .endOfImage, .compatRetSP, .aluSelectorError].map
      FaultKind.number = [1, 2, 3, 4, 5] := by decide

/-! ### The host's side -/

/-- E2: the image FF, loaded and run. -/
theorem test_unknown_opcode_image :
    (match State.reset.load [0xFF] with
      | .ok s => faultOf s.startRun
      | .error _ => none) = some ⟨.unknownInstruction, 0, some 0xFF, none⟩ := by decide

/-- R244: a second Load is refused, after an empty image too. -/
theorem test_second_load_refused :
    (match State.reset.load [] with
      | .ok s => s.load [0x01]
      | .error e => .error e) = .error .alreadyLoaded := by decide

/-- R245. -/
theorem test_failed_supply : State.reset.loadSupplied none = .error .notSupplied := by decide

/-- R37: nothing to read before the run ends. -/
theorem test_final_read :
    State.reset.finalRead = none ∧ (coreAt 0 []).halt.finalRead = some (coreAt 0 []).halt := by decide

/-- R103: no sign and no leading zeros. -/
theorem test_render_output :
    renderOutput [8, 255, 0] = ['8', '\n', '2', '5', '5', '\n', '0', '\n'] := by decide

/-- R90. -/
theorem test_assembly :
    (Instr.ldi 0 8).assembly = ['L', 'D', 'I', ' ', 'R', '0', ',', '8'] ∧
    Instr.hlt.assembly = ['H', 'L', 'T'] := by decide

/-- R92: a row with its bytes, and a byte of no row. -/
theorem test_disassemble :
    (coreAt 0xFE [0x82, 0x00, 0x2A]).disassembleAt 0xFE = .row .ldi [0x82, 0x00, 0x2A] ∧
    (coreAt 0 []).disassembleAt 0 = .unknown 0x00 := by decide

/-! ### Witnesses: the hypotheses of each statement can be met, each clause at its boundary -/

/-- A running core with the byte `b` at `pc`, the first `k` of its instruction's bytes in the image and the
next one past it when `more` holds. -/
def reaches (s : State) (b : Byte) (k : Nat) (more : Bool) : Bool :=
  s.runState == .running && s.readMem s.pc == b &&
    (List.range k).all (fun j => decide (s.fetchable (s.byteAddr j))) &&
    (!more || !decide (s.fetchable (s.byteAddr k)))

/-- The premises of each clause of CycleN. -/
def witnessN (mk : Fin 257 → State) (b : Byte) : Bool :=
  reaches (mk 0) b 0 true && reaches (mk 1) b 1 false

/-- The premises of each clause of CycleR, with the operand byte at its boundary, 7 and 8. -/
def witnessR (mk : Byte → Fin 257 → State) (b : Byte) : Bool :=
  reaches (mk 7 0) b 0 true && reaches (mk 7 1) b 1 true &&
  (reaches (mk 8 2) b 2 false && (mk 8 2).instrByte 1 == 8) &&
  (reaches (mk 7 2) b 2 false && (mk 7 2).instrByte 1 == regByte 7)

/-- The premises of each clause of CycleRI and CycleRR, with the operand bytes at their boundary. -/
def witness3 (mk : Byte → Byte → Fin 257 → State) (b : Byte) : Bool :=
  reaches (mk 7 7 0) b 0 true && reaches (mk 7 7 1) b 1 true && reaches (mk 7 7 2) b 2 true &&
  (reaches (mk 8 7 3) b 3 false && (mk 8 7 3).instrByte 1 == 8) &&
  (reaches (mk 7 8 3) b 3 false && (mk 7 8 3).instrByte 1 == 7 && (mk 7 8 3).instrByte 2 == 8) &&
  (reaches (mk 7 7 3) b 3 false && (mk 7 7 3).instrByte 1 == regByte 7 && (mk 7 7 3).instrByte 2 == regByte 7)

theorem witness_LdiLoadsImmediate : witness3 (fun x y len => coreAt 0 [0x82, x, y] len) 0x82 = true := by decide
theorem witness_PrnAppendsToOutput : witnessR (fun op len => coreAt 0 [0x47, op] len) 0x47 = true := by decide
theorem witness_HltEndsTheRun : witnessN (fun len => coreAt 0 [0x01] len) 0x01 = true := by decide
theorem witness_MulKeepsLowByteOfProduct : witness3 (fun x y len => coreAt 0 [0xA2, x, y] len) 0xA2 = true := by decide
theorem witness_AddKeepsLowByteOfSum : witness3 (fun x y len => coreAt 0 [0xA0, x, y] len) 0xA0 = true := by decide

theorem witness_CmpWritesUnsignedComparison :
    witness3 (fun x y len => coreAt 0 [0xA7, x, y] len) 0xA7 = true ∧
    (State.reset.readReg 0).toNat = (State.reset.readReg 1).toNat ∧
    (State.reset.readReg 0).toNat < (State.reset.readReg 7).toNat := by decide

theorem witness_PushStoresBelowSp : witnessR (fun op len => coreAt 0 [0x45, op] len) 0x45 = true := by decide

theorem witness_PopLoadsFromSp :
    witnessR (fun op len => coreAt 0 [0x46, op] len) 0x46 = true ∧ (6 : Reg) ≠ 7 := by decide

theorem witness_CallPushesReturnAddress : witnessR (fun op len => coreAt 0 [0x50, op] len) 0x50 = true := by decide

theorem witness_RetPopsProgramCounter :
    witnessN (fun len => coreAt 0 [0x11] len) 0x11 = true ∧ (coreAt 0 [0x11]).config.retWritesRegister = false := by decide

theorem witness_CompatRetWritesRegister :
    witnessR (fun op len => compatAt 0 [0x11, op] len) 0x11 = true ∧
    (compatAt 0 [0x11]).config.retWritesRegister = true ∧ (6 : Reg) ≠ 7 := by decide

theorem witness_JmpSetsProgramCounter : witnessR (fun op len => coreAt 0 [0x54, op] len) 0x54 = true := by decide

theorem witness_JeqJumpsOnEqual :
    witnessR (fun op len => coreAt 0 [0x55, op] len) 0x55 = true ∧
    (coreAt 0 []).fl.toNat % 2 = 0 ∧ ((coreAt 0 []).setFl 1).fl.toNat % 2 = 1 := by decide

theorem witness_JneJumpsOnNotEqual :
    witnessR (fun op len => coreAt 0 [0x56, op] len) 0x56 = true ∧
    (coreAt 0 []).fl.toNat % 2 = 0 ∧ ((coreAt 0 []).setFl 1).fl.toNat % 2 = 1 := by decide

theorem witness_DecodeInvertsEncode :
    (Instr.ldi 7 0xFF).wellFormed .default = true ∧ (Instr.ret none).wellFormed .default = true ∧
    (Instr.ret (some 7)).wellFormed compat = true := by decide

theorem witness_DecodedBytesAreTheEncoding :
    decode compat [0x11, 0x07, 0x01] = .instr (.ret (some 7)) [0x01] := by decide

theorem witness_OpcodeByteFixesLength :
    decode .default [0x82, 0x00, 0x08, 0x01] = .instr (.ldi 0 8) [0x01] ∧
    decode .default [0x82, 0x07, 0xFF] = .instr (.ldi 7 0xFF) [] := by decide

theorem witness_OpcodeByteMatchedWhole :
    decode .default [0x00] = .reject (.unknownInstruction 0x00) ∧ (0x00 : Byte) ∉ opcodeBytes ∧
    decode .default [0x01] = .instr .hlt [] := by decide

theorem witness_StepRunsDecodedInstruction :
    (coreAt 0 [0x45, 0x07] 2).runState = .running ∧
    decode (coreAt 0 [0x45, 0x07] 2).config ((coreAt 0 [0x45, 0x07] 2).instrBytes maxLength) =
      .instr (.push 7) [0x00] ∧
    ∀ k, k < (Instr.push 7).length →
      (coreAt 0 [0x45, 0x07] 2).fetchable ((coreAt 0 [0x45, 0x07] 2).byteAddr k) := by decide

theorem witness_FetchedInstructionStandsAtPc :
    (coreAt 0xFE [0x82, 0x07, 0xFF]).fetch = .instr (.ldi 7 0xFF) := by decide

theorem witness_FirstFailingCheckGivesTheFault :
    ¬ (coreAt 0 [0x82] 0).fetchable 0 ∧
    ((coreAt 0 [0xFF] 1).fetchable 0 ∧ Opcode.ofByte? ((coreAt 0 [0xFF] 1).readMem 0) = none) ∧
    Opcode.ofByte? 0xA0 = some .add ∧ Opcode.ofByte? 0x11 = some .ret ∧
    witness3 (fun x y len => coreAt 0 [0xA0, x, y] len) 0xA0 = true ∧
    Opcode.add.operandCount .default = 2 ∧ Opcode.add.format .default = .rr ∧
    (compatAt 0 [0x11, 7] 2).runState = .running ∧ (compatAt 0 [0x11, 7] 2).readMem 0 = 0x11 ∧
    (compatAt 0 [0x11, 7] 2).readMem 1 = 7 ∧ (compatAt 0 [0x11, 7] 2).fetchable 0 ∧
    (∀ k, 1 ≤ k → k ≤ Opcode.ret.operandCount compat → (compatAt 0 [0x11, 7] 2).fetchable
      ((compatAt 0 [0x11, 7] 2).byteAddr k)) := by
  refine ⟨by decide, by decide, by decide, by decide, by decide, by decide, by decide, by decide, by decide,
    by decide, by decide, fun k h1 h2 => ?_⟩
  have hk : k = 1 := Nat.le_antisymm h2 h1
  subst hk
  decide

theorem witness_UnknownOpcodeFaults :
    (coreAt 0 [0xFF] 1).runState = .running ∧ (coreAt 0 [0xFF] 1).fetchable 0 ∧
    (coreAt 0 [0xFF] 1).readMem 0 ∉ opcodeBytes := by decide

/-- A step from a state with no record that leaves one, in a Faulted state. -/
theorem witness_FaultOnlyRecordsAndStops :
    ∃ t, step (coreAt 0 [0xFF] 1) = .next t ∧ t.runState = .faulted := ⟨_, rfl, rfl⟩

theorem witness_AluSelectorErrorNeverRaised :
    ∃ t r, (coreAt 0 [0xFF] 1).faultRecord = none ∧ step (coreAt 0 [0xFF] 1) = .next t ∧
      t.faultRecord = some r := ⟨_, _, rfl, rfl, rfl⟩

theorem witness_RunStateTransitions :
    State.reset.runState = .constructed ∧ (∃ t, step (coreAt 0 [0x01]) = .next t) ∧
    (coreAt 0 []).halt.runState = .halted ∧
    ((coreAt 0 []).raiseFault ⟨.endOfImage, 0, none, some 0⟩).runState = .faulted :=
  ⟨rfl, ⟨_, rfl⟩, rfl, rfl⟩

/-- A step that stores, and one that faults, from states that meet the invariant. -/
theorem witness_StepKeepsInvariant :
    (coreAt 0 [0x45, 0x07]).Inv ∧ (∃ t, step (coreAt 0 [0x45, 0x07]) = .next t) ∧
    (coreAt 0 [0xFF]).Inv ∧ (∃ t, step (coreAt 0 [0xFF]) = .next t) :=
  ⟨by decide, ⟨_, rfl⟩, by decide, ⟨_, rfl⟩⟩

theorem witness_LoadAndRunKeepInvariant :
    State.reset.Inv ∧ ∃ t, State.reset.load [0x82, 0x00, 0x08] = .ok t := ⟨by decide, _, rfl⟩

/-- An instruction other than CMP, CMP, and a jump with FL changed in other bits than bit 0. -/
theorem witness_FlagsWrittenByCmpReadByJumps :
    (∃ t, exec (.prn 0) State.reset = .next t) ∧ (∃ t, exec (.cmp 0 7) State.reset = .next t) ∧
    (∃ t, exec (.jeq 0) State.reset = .next t) ∧ (0b110 : Byte).toNat % 2 = State.reset.fl.toNat % 2 :=
  ⟨⟨_, rfl⟩, ⟨_, rfl⟩, ⟨_, rfl⟩, by decide⟩

theorem witness_OnlyPrnChangesOutput :
    ∃ t, exec (.prn 7) State.reset = .next t ∧ t.out ≠ State.reset.out := ⟨_, rfl, by decide⟩

theorem witness_OnlyPushAndCallStore :
    ∃ t, exec (.push 7) State.reset = .next t ∧ t.readMem 0xF3 ≠ State.reset.readMem 0xF3 :=
  ⟨_, rfl, by decide⟩

theorem witness_CanonicalMemoryIsUnique :
    Memory.wf [(0, 1), (255, 2)] ∧
    ∀ a : Byte, Memory.read [(0, 1), (255, 2)] a.toNat = Memory.read [(0, 1), (255, 2)] a.toNat :=
  ⟨by decide, fun _ => rfl⟩

theorem witness_StepKeepsLaunchState : ∃ t, step (coreAt 0 [0x01] 1) = .next t := ⟨_, rfl⟩

/-- Two running states that differ in the output alone. -/
theorem witness_RunDependsOnlyOnProgramView :
    (coreAt 0 [0x01]).runState = .running ∧ ((coreAt 0 [0x01]).emit 5).runState = .running ∧
    (coreAt 0 [0x01]).programView = ((coreAt 0 [0x01]).emit 5).programView ∧
    (coreAt 0 [0x01]).imageLen = ((coreAt 0 [0x01]).emit 5).imageLen ∧
    (coreAt 0 [0x01]).config = ((coreAt 0 [0x01]).emit 5).config ∧
    (coreAt 0 [0x01]).faultRecord = ((coreAt 0 [0x01]).emit 5).faultRecord :=
  ⟨rfl, rfl, rfl, rfl, rfl, rfl⟩

theorem witness_PushThenPopRoundTrips : (0 : Reg) ≠ 7 ∧ (6 : Reg) ≠ 7 := by decide

theorem witness_CallThenRetResumesAfterCall :
    ∃ t u : State, exec (.call 7) State.reset = .next t ∧ u.sp = t.sp ∧ u.readMem u.sp = t.readMem t.sp :=
  ⟨_, _, rfl, rfl, rfl⟩

/-- A run of one PUSH, from P4's kind of code. -/
theorem witness_StackPointerIsTheBalance :
    (∃ t, Executes (coreAt 0 [0x45, 0x00]) [.push 0] t) ∧
    ∀ i ∈ [Instr.push 0], writesSpDirectly i = false :=
  ⟨⟨_, .cons rfl (by decide) rfl (.nil _)⟩, by decide⟩

/-- The state of program P7 before its PUSH, with SP = 9. -/
def beforeSelfModification : State := ((coreAt 6 [0x45, 0x00] 11).writeReg 7 9).writeReg 0 1

/-- PUSH: the stored byte is the next opcode byte (0x01, of a row), or an operand of the next instruction.
CALL: R7 and another register, with a stored byte of no row (0x08). -/
theorem witness_PushedByteIsFetchedNext :
    (beforeSelfModification.runState = .running ∧
      beforeSelfModification.pc + 2 = beforeSelfModification.pushAddr ∧
      beforeSelfModification.fetchable beforeSelfModification.pushAddr ∧
      beforeSelfModification.readReg 0 = 0x01) ∧
    ((after (exec (.push 0) (beforeSelfModification.writeReg 7 0x0A))).any fun t =>
      t.byteAddr 1 == (beforeSelfModification.writeReg 7 0x0A).pushAddr) = true ∧
    ((coreAt 6 [0x50, 0x07]).runState = .running ∧
      (coreAt 6 [0x50, 0x07]).fetchable (coreAt 6 [0x50, 0x07]).pushAddr ∧
      ((coreAt 6 [0x50, 0x01]).writeReg 1 0xF3).readReg 1 =
        ((coreAt 6 [0x50, 0x01]).writeReg 1 0xF3).pushAddr ∧
      (coreAt 6 [0x50, 0x07]).pc + 2 ∉ opcodeBytes) := by decide

/-- R65, CALL R7 as an instance: the stored return address 0x08 is fetched, and is of no row. -/
theorem test_stored_return_address_is_fetched :
    ((after (step (coreAt 6 [0x50, 0x07]))).bind faultOf) =
      some ⟨.unknownInstruction, 0xF3, some 0x08, none⟩ := by decide

theorem witness_SelfJumpRunsForever :
    (coreAt 0 [0x54, 0x00] 2).runState = .running ∧ (coreAt 0 [0x54, 0x00] 2).fetchable 0 ∧
    (coreAt 0 [0x54, 0x00] 2).fetchable 1 ∧ (coreAt 0 [0x54, 0x00] 2).readMem 0 = 0x54 ∧
    (coreAt 0 [0x54, 0x00] 2).readMem 1 = BitVec.ofNat 8 (0 : Reg).val ∧
    (coreAt 0 [0x54, 0x00] 2).readReg 0 = (coreAt 0 [0x54, 0x00] 2).pc := by decide

theorem witness_MemoryIsZeroThenTheImage :
    ([0x82, 0x00, 0x08] : List Byte).length ≤ 256 ∧
    ∃ t, step (coreAt 0 [0x45, 0x07]) = .next t ∧ t.readMem 0xF3 ≠ (coreAt 0 [0x45, 0x07]).readMem 0xF3 :=
  ⟨by decide, _, rfl, by decide⟩

/-- A Load accepted, with an address inside the image and the first one past it; and one refused. -/
theorem witness_LoadPlacesTheImage :
    State.reset.runState = .constructed ∧ State.reset.loaded = false ∧
    (∃ t, State.reset.load [0x01] = .ok t) ∧
    (0 : Byte).toNat < ([0x01] : List Byte).length ∧ ([0x01] : List Byte).length ≤ (1 : Byte).toNat ∧
    State.load (coreAt 0 []) [0x01] = .error .notConstructed :=
  ⟨by decide, by decide, ⟨_, rfl⟩, by decide, by decide, by decide⟩

theorem witness_RunWithoutLoadFaultsAtOnce : (coreAt 0 []).runState ≠ .constructed := by decide

theorem witness_RunCyclesUntilHaltedOrFaulted :
    State.reset.runState = .constructed ∧ (State.cycles 0 (coreAt 0 [0x01])).runState = .running ∧
    (State.cycles 1 (coreAt 0 [0x01])).runState ≠ .running := by decide

/-- The invariant at reset, which ResetMeetsInvariant states, holds for a loaded and started core too. -/
theorem test_started_core_inv : (coreAt 0 [0x82, 0x00, 0x08]).Inv := by decide

end Sys2Proof.Tests
end

section
/-! PROOFS. The run states and FL: what executing an instruction does to each, and the statements of
spec/10_state.md sections 3 and 4 (R28, R29). -/

namespace Sys2Proof.Machine

/-! ### The instructions whose meaning branches -/

/-- RET by its operand: format N, format R, or CompatRetSP for operand 7 (R163, R166, R205). -/
theorem exec_ret_cases {operand : Option Reg} {s t : State} (h : exec (.ret operand) s = .next t) :
    (operand = none ∧ t = s.popPc) ∨
    (∃ r, operand = some r ∧ r ≠ spReg ∧ t = s.popPcAndReg r) ∨
    (operand = some spReg ∧ t = s.raiseFault ⟨.compatRetSP, s.pc, some 0x11, some 7⟩) := by
  cases operand with
  | none => cases h; exact .inl ⟨rfl, rfl⟩
  | some r =>
    simp only [exec, execRet] at h
    split at h <;> rename_i hr <;> cases h
    · exact .inr (.inr ⟨congrArg some hr, rfl⟩)
    · exact .inr (.inl ⟨r, rfl, hr, rfl⟩)

/-- JEQ either jumps or goes on to the next instruction (R170). -/
theorem exec_jeq_cases {r : Reg} {s t : State} (h : exec (.jeq r) s = .next t) :
    (s.flagE = true ∧ t = s.setPc (s.jumpTarget r)) ∨ (s.flagE = false ∧ t = s.advance 2) := by
  simp only [exec, execJeq] at h
  split at h <;> rename_i hE <;> cases h
  · exact .inl ⟨hE, rfl⟩
  · exact .inr ⟨Bool.eq_false_of_not_eq_true hE, rfl⟩

/-- JNE either goes on to the next instruction or jumps (R172). -/
theorem exec_jne_cases {r : Reg} {s t : State} (h : exec (.jne r) s = .next t) :
    (s.flagE = true ∧ t = s.advance 2) ∨ (s.flagE = false ∧ t = s.setPc (s.jumpTarget r)) := by
  simp only [exec, execJne] at h
  split at h <;> rename_i hE <;> cases h
  · exact .inl ⟨hE, rfl⟩
  · exact .inr ⟨Bool.eq_false_of_not_eq_true hE, rfl⟩

/-! ### The run state (R29) -/

/-- The run state an instruction leaves: Halted by HLT, Faulted by RET with operand 7, else as it was. -/
theorem exec_runState_cases {i : Instr} {s t : State} (h : exec i s = .next t) :
    (i ≠ .hlt ∧ i ≠ .ret (some 7) ∧ t.runState = s.runState) ∨
    (i = .hlt ∧ t.runState = .halted) ∨
    (i = .ret (some 7) ∧ t.runState = .faulted) := by
  cases i with
  | hlt => cases h; exact .inr (.inl ⟨rfl, rfl⟩)
  | ret operand =>
    obtain ⟨rfl, rfl⟩ | ⟨r, rfl, hr, rfl⟩ | ⟨rfl, rfl⟩ := exec_ret_cases h
    · exact .inl ⟨nofun, nofun, rfl⟩
    · exact .inl ⟨nofun, fun heq => hr (by cases heq; rfl), rfl⟩
    · exact .inr (.inr ⟨rfl, rfl⟩)
  | jeq r =>
    obtain ⟨-, rfl⟩ | ⟨-, rfl⟩ := exec_jeq_cases h <;> exact .inl ⟨nofun, nofun, rfl⟩
  | jne r =>
    obtain ⟨-, rfl⟩ | ⟨-, rfl⟩ := exec_jne_cases h <;> exact .inl ⟨nofun, nofun, rfl⟩
  | _ => cases h; exact .inl ⟨nofun, nofun, rfl⟩

theorem State.startRun_of_constructed {s : State} (h : s.runState = .constructed) :
    s.startRun = { s with runState := .running } := if_pos h

theorem State.startRun_of_ne_constructed {s : State} (h : s.runState ≠ .constructed) : s.startRun = s :=
  if_neg h

/-- No cycle is enabled outside Running (R83). -/
theorem step_ne_next_of_ne_running {s : State} (h : s.runState ≠ .running) (t : State) :
    step s ≠ .next t := fun ht => h (step_eq_next_iff.mp ht).1

/-! ### FL (R27, R28) -/

@[simp] theorem State.setFl_setFl (s : State) (v w : Byte) : (s.setFl v).setFl w = s.setFl w := rfl

/-- `FL.E` is the parity of FL. -/
theorem State.flagE_eq_decide (s : State) : s.flagE = decide (s.fl.toNat % 2 = 1) :=
  Nat.testBit_zero s.fl.toNat

theorem State.flagE_setFl_of_mod_eq {s : State} {f : Byte} (h : f.toNat % 2 = s.fl.toNat % 2) :
    (s.setFl f).flagE = s.flagE := by
  simp only [State.flagE_eq_decide, State.setFl_fl, h]

/-- CMP sets exactly one of E, G and L (R126). -/
theorem compareFlags_cases (a b : Byte) :
    compareFlags a b = 0b001 ∨ compareFlags a b = 0b010 ∨ compareFlags a b = 0b100 := by
  unfold compareFlags
  split
  · exact .inl rfl
  · split
    · exact .inr (.inr rfl)
    · exact .inr (.inl rfl)

/-- An instruction other than CMP does not write FL. -/
theorem exec_fl_of_ne_cmp {i : Instr} {s t : State} (h : exec i s = .next t)
    (hi : ∀ a b, i ≠ .cmp a b) : t.fl = s.fl := by
  cases i with
  | cmp a b => exact absurd rfl (hi a b)
  | ret operand => obtain ⟨-, rfl⟩ | ⟨r, -, -, rfl⟩ | ⟨-, rfl⟩ := exec_ret_cases h <;> rfl
  | jeq r => obtain ⟨-, rfl⟩ | ⟨-, rfl⟩ := exec_jeq_cases h <;> rfl
  | jne r => obtain ⟨-, rfl⟩ | ⟨-, rfl⟩ := exec_jne_cases h <;> rfl
  | _ => cases h; rfl

/-- CMP overwrites FL whole: its result does not depend on the FL it finds. -/
theorem exec_cmp_setFl (a b : Reg) (s : State) (f : Byte) :
    exec (.cmp a b) (s.setFl f) = exec (.cmp a b) s := rfl

/-- An instruction other than CMP carries a change of FL through unread; JEQ and JNE do so when the change
keeps `FL.E`. -/
theorem exec_setFl_of_ne_cmp {i : Instr} {s t : State} {f : Byte} (h : exec i s = .next t)
    (hi : ∀ a b, i ≠ .cmp a b)
    (hE : (∃ r, i = .jeq r ∨ i = .jne r) → f.toNat % 2 = s.fl.toNat % 2) :
    exec i (s.setFl f) = .next (t.setFl f) := by
  cases i with
  | cmp a b => exact absurd rfl (hi a b)
  | ret operand =>
    obtain ⟨rfl, rfl⟩ | ⟨r, rfl, hr, rfl⟩ | ⟨rfl, rfl⟩ := exec_ret_cases h
    · rfl
    · simp only [exec, execRet, if_neg hr]; rfl
    · rfl
  | jeq r =>
    have hflag := State.flagE_setFl_of_mod_eq (hE ⟨r, .inl rfl⟩)
    obtain ⟨hs, rfl⟩ | ⟨hs, rfl⟩ := exec_jeq_cases h <;> simp only [exec, execJeq, hflag, hs] <;> rfl
  | jne r =>
    have hflag := State.flagE_setFl_of_mod_eq (hE ⟨r, .inr rfl⟩)
    obtain ⟨hs, rfl⟩ | ⟨hs, rfl⟩ := exec_jne_cases h <;> simp only [exec, execJne, hflag, hs] <;> rfl
  | _ => cases h; rfl

end Sys2Proof.Machine

namespace Sys2Proof.Claims

open Sys2Proof.Machine

/-- Settles O27: a step executes the instruction fetched, whose effect on the run state is
`exec_runState_cases`, or raises a fault. -/
theorem runStateTransitions : Obligations.RunStateTransitions := by
  refine ⟨rfl, fun s hs => ?run, fun s t hst => ?step, fun s hs => ?terminal⟩
  case run => rw [State.startRun_of_constructed hs]
  case step =>
    obtain ⟨hrun, ⟨i, hf, hex⟩ | ⟨r, hf, rfl⟩⟩ := step_eq_next_iff.mp hst
    · refine ⟨hrun, ?_⟩
      obtain ⟨hhlt, hret, ht⟩ | ⟨rfl, ht⟩ | ⟨rfl, ht⟩ := exec_runState_cases hex
      · exact .inl ⟨i, hf, hhlt, hret, ht.trans hrun⟩
      · exact .inr (.inl ⟨hf, ht⟩)
      · exact .inr (.inr ⟨.inr hf, ht⟩)
    · exact ⟨hrun, .inr (.inr ⟨.inl ⟨r, hf⟩, rfl⟩)⟩
  case terminal =>
    have hc : s.runState ≠ .constructed := by intro h; simp [h] at hs
    have hr : s.runState ≠ .running := by intro h; simp [h] at hs
    exact ⟨State.startRun_of_ne_constructed hc, step_ne_next_of_ne_running hr⟩

/-- Settles O31: CMP's result does not depend on the FL it finds, and every other instruction carries FL
through unchanged. -/
theorem flagsWrittenByCmpReadByJumps : Obligations.FlagsWrittenByCmpReadByJumps := by
  refine ⟨rfl, fun i s t h hi => exec_fl_of_ne_cmp h hi, fun a b s t h => ?written,
    fun i s t f h hE => ?read⟩
  case written => cases h; exact compareFlags_cases _ _
  case read =>
    by_cases hi : ∃ a b, i = .cmp a b
    · obtain ⟨a, b, rfl⟩ := hi
      exact ⟨t, (exec_cmp_setFl a b s f).trans h, rfl⟩
    · have hne : ∀ a b, i ≠ .cmp a b := fun a b heq => hi ⟨a, b, heq⟩
      exact ⟨t.setFl f, exec_setFl_of_ne_cmp h hne hE, State.setFl_setFl t f 0⟩

end Sys2Proof.Claims
end

section
/-! PROOFS. Memory: what a run of byte writes and a Load leave in it, which instructions store to it, and how a
byte stored to is fetched next (spec/20_memory.md: R51, R65). -/

namespace Sys2Proof.Machine

/-! ### Byte writes and Load -/

@[simp] theorem State.reset_readMem (a : Byte) : State.reset.readMem a = 0 := rfl

@[simp] theorem State.readMem_writeMem_self (s : State) (a v : Byte) : (s.writeMem a v).readMem a = v := by
  simp [State.readMem_writeMem]

/-- A read after byte writes from `a`: the byte at its distance from `a`, and beyond them what was there. At
most 256 bytes, so that none of them wraps on to another. -/
theorem State.readMem_writeBytes (s : State) (a b : Byte) {bs : List Byte} (h : bs.length ≤ 256) :
    (s.writeBytes a bs).readMem b = bs.getD (b - a).toNat (s.readMem b) := by
  induction bs generalizing s a with
  | nil => rfl
  | cons c cs ih =>
    rw [List.length_cons] at h
    rw [State.writeBytes, ih _ _ (by omega), State.readMem_writeMem]
    by_cases hb : b = a
    · subst hb
      have hdist : (b - (b + 1)).toNat = 255 := by bv_omega
      rw [hdist, List.getD_eq_default _ _ (by omega)]
      simp
    · have hdist : (b - a).toNat = (b - (a + 1)).toNat + 1 := by bv_omega
      simp [hdist, hb]

/-- A Load that is accepted (R244). -/
theorem State.load_eq_ok {s : State} {bytes : List Byte} (hc : s.runState = .constructed)
    (hl : s.loaded = false) (h : bytes.length < 257) :
    s.load bytes = .ok { s.writeBytes 0 bytes with imageLen := ⟨bytes.length, h⟩, loaded := true } := by
  simp [State.load, hc, hl, h]

/-! ### The instructions that store -/

/-- An instruction other than PUSH and CALL stores nothing (R55). -/
theorem exec_mem_of_ne_push_call {i : Instr} {s t : State} (h : exec i s = .next t)
    (hpush : ∀ r, i ≠ .push r) (hcall : ∀ r, i ≠ .call r) : t.mem = s.mem := by
  cases i with
  | push r => exact absurd rfl (hpush r)
  | call r => exact absurd rfl (hcall r)
  | ret operand => obtain ⟨-, rfl⟩ | ⟨r, -, -, rfl⟩ | ⟨-, rfl⟩ := exec_ret_cases h <;> rfl
  | jeq r => obtain ⟨-, rfl⟩ | ⟨-, rfl⟩ := exec_jeq_cases h <;> rfl
  | jne r => obtain ⟨-, rfl⟩ | ⟨-, rfl⟩ := exec_jne_cases h <;> rfl
  | _ => cases h; rfl

/-- What PUSH leaves (R140, D10): the operand is read after the decrement. -/
theorem exec_push_eq (r : Reg) (s : State) :
    exec (.push r) s =
      .next ((s.decSp.writeMem s.pushAddr (if r = 7 then s.sp - 1 else s.readReg r)).advance 2) := by
  rw [← State.decSp_readReg]; rfl

/-- What CALL leaves (R160, D10): the target is read after the decrement. -/
theorem exec_call_eq (r : Reg) (s : State) :
    exec (.call r) s =
      .next ((s.decSp.writeMem s.pushAddr (s.pc + 2)).setPc (if r = 7 then s.sp - 1 else s.readReg r)) := by
  rw [← State.decSp_readReg]; rfl

/-- A byte of the instruction at `pc` is the byte that stands at its address. -/
theorem State.instrByte_of_byteAddr_eq {s : State} {a : Byte} {k : Nat} (h : s.byteAddr k = a) :
    s.instrByte k = s.readMem a := congrArg s.readMem h

/-! ### The opcode byte fetched -/

/-- An opcode byte that may be fetched is of a row, whose operands are then looked at, or is unknown (R78). -/
theorem State.fetch_of_fetchable {s : State} (h : s.fetchable s.pc) :
    (Opcode.ofByte? (s.readMem s.pc) = none ∧
      s.fetch = .raises ⟨.unknownInstruction, s.pc, some (s.readMem s.pc), none⟩) ∨
    ∃ o : Opcode, s.readMem s.pc = o.byte ∧ s.fetch = s.fetchOperands o.byte o := by
  cases ho : Opcode.ofByte? (s.readMem s.pc) with
  | none => exact .inl ⟨rfl, by simp [State.fetch, State.pastImage_eq_false_iff.mpr h, ho]⟩
  | some o =>
    have hb := Opcode.ofByte?_eq_some_iff.mp ho
    exact .inr ⟨o, hb, State.fetch_of_row h hb⟩

/-- A fault of the operands records the opcode byte (R201). -/
theorem State.opcode_of_fetchOperands_raises {s : State} {opc : Byte} {o : Opcode} {r : FaultRecord}
    (h : s.fetchOperands opc o = .raises r) : r.opcode = some opc := by
  unfold State.fetchOperands at h
  split at h
  · cases h; rfl
  · split at h <;> cases h
    rfl

/-- HLT has no operands to check (R104). -/
theorem State.fetch_of_hlt {s : State} (h : s.fetchable s.pc) (hb : s.readMem s.pc = Opcode.hlt.byte) :
    s.fetch = .instr .hlt :=
  (State.fetch_of_row h hb).trans
    (State.fetchOperands_of_instr (o := .hlt) s.operandPastImage_zero rfl)

end Sys2Proof.Machine

namespace Sys2Proof.Claims

open Sys2Proof.Machine

/-- The bytes of no row are those outside the hex column of R72. -/
theorem ofByte?_eq_none_iff {b : Byte} : Opcode.ofByte? b = none ↔ b ∉ opcodeBytes := by
  have hbytes : opcodeBytes = Opcode.all.map Opcode.byte := rfl
  simp [Opcode.ofByte?, hbytes]

/-- A running cycle that may fetch at `pc` takes the byte that stands there as its opcode byte (R80). -/
theorem fetchesOpcodeByte_readMem_pc {s : State} (hs : s.runState = .running) (h : s.fetchable s.pc) :
    FetchesOpcodeByte s (s.readMem s.pc) := by
  refine ⟨fun i hi => ?instr, fun r hr => ?raises, fun hv => ?unknown, fun hv => ?halts⟩
  case instr =>
    obtain ⟨-, o, ho, -, ha⟩ := State.fetch_eq_instr_iff.mp hi
    rw [(Opcode.assemble_eq_instr ha).1, Opcode.byte_of_ofByte? ho]
  case raises =>
    obtain ⟨-, hf⟩ | ⟨o, hb, hf⟩ := State.fetch_of_fetchable h
    · cases hf.symm.trans hr; rfl
    · rw [hb]; exact State.opcode_of_fetchOperands_raises (hf.symm.trans hr)
  case unknown =>
    obtain ⟨-, hf⟩ | ⟨o, hb, -⟩ := State.fetch_of_fetchable h
    · exact State.raisesFault_of_fetch hs hf
    · rw [← ofByte?_eq_none_iff, hb, Opcode.ofByte?_byte] at hv; cases hv
  case halts => exact ⟨_, step_of_fetch hs (State.fetch_of_hlt h hv), rfl⟩

/-- The cycle after a store takes the byte stored as its opcode byte, once `pc` is at its address. -/
theorem fetchesOpcodeByte_of_readMem {s : State} {a v : Byte} (hs : s.runState = .running) (hpc : s.pc = a)
    (hf : s.fetchable a) (hv : s.readMem a = v) : FetchesOpcodeByte s v := by
  subst hpc hv
  exact fetchesOpcodeByte_readMem_pc hs hf

/-- Settles O41: after PUSH or CALL the address stored to reads as the byte stored, and the cycle takes the
byte at `pc` as its opcode byte. -/
theorem pushedByteIsFetchedNext : Obligations.PushedByteIsFetchedNext := by
  refine fun r s => ⟨⟨_, exec_push_eq r s, fun k hk => ?_, fun hs hpc hf => ?_⟩,
    ⟨_, exec_call_eq r s, fun k hk => ?_, fun hs hpc hf => ?_⟩⟩
  · rw [State.instrByte_of_byteAddr_eq hk]; simp
  · exact fetchesOpcodeByte_of_readMem hs hpc hf (by simp)
  · rw [State.instrByte_of_byteAddr_eq hk]; simp
  · have htarget : (if r = 7 then s.sp - 1 else s.readReg r) = s.pushAddr := by
      rw [State.pushAddr_eq] at hpc ⊢
      split
      · rfl
      · rename_i hr; exact hpc.resolve_left hr
    exact fetchesOpcodeByte_of_readMem hs htarget hf (by simp)

/-- Settles O44: a Load from reset writes its bytes over cells that hold 0, and a step that executes neither
PUSH nor CALL keeps memory. -/
theorem memoryIsZeroThenTheImage : Obligations.MemoryIsZeroThenTheImage := by
  refine ⟨State.reset_readMem, fun bytes hlen => ?load, fun s t a hst hne => ?step⟩
  case load =>
    refine ⟨_, State.load_eq_ok rfl rfl (Nat.lt_succ_of_le hlen), fun a => ?_⟩
    have hread : (State.reset.writeBytes 0 bytes).readMem a = bytes.getD a.toNat 0 := by
      simpa using State.readMem_writeBytes State.reset 0 a hlen
    exact hread
  case step =>
    obtain ⟨-, ⟨i, hf, hex⟩ | ⟨r, -, rfl⟩⟩ := step_eq_next_iff.mp hst
    · by_contra hno
      have hmem : t.mem = s.mem := exec_mem_of_ne_push_call hex
        (fun r hi => hno ⟨r, .inl (hi ▸ hf)⟩) (fun r hi => hno ⟨r, .inr (hi ▸ hf)⟩)
      exact hne (congrArg (Memory.read · a.toNat) hmem)
    · exact absurd (State.raiseFault_readMem s r a) hne

end Sys2Proof.Claims
end

section
/-! PROOFS. The decoder and the fetch: what decoding from an opcode byte says, what a fetched instruction has in
memory, and the statements of spec/30_encoding.md (R71, R73, R92). -/

namespace Sys2Proof

/-! ### Decoding from an opcode byte -/

/-- No row's format has more than two operand bytes (R70). -/
theorem Opcode.operandCount_le_two (cfg : Config) (o : Opcode) : o.operandCount cfg ≤ 2 := by
  unfold Opcode.operandCount
  cases o.format cfg <;> decide

/-- What decoding an instruction says: a row's byte, as many operand bytes as its format has, and the row
assembled. -/
theorem decode_cons_eq_instr_iff {cfg : Config} {b : Byte} {ops rest : List Byte} {i : Instr} :
    decode cfg (b :: ops) = .instr i rest ↔
      ∃ o, Opcode.ofByte? b = some o ∧ o.operandCount cfg ≤ ops.length ∧
        o.assemble cfg (ops.getD 0 0) (ops.getD 1 0) = .instr i ∧ rest = ops.drop (o.operandCount cfg) := by
  rw [decode]
  cases Opcode.ofByte? b with
  | none => simp
  | some o =>
    simp only [Option.some_inj, exists_eq_left', ← not_lt]
    by_cases hlen : ops.length < o.operandCount cfg
    · simp [hlen]
    · cases o.assemble cfg (ops.getD 0 0) (ops.getD 1 0) <;> simp [hlen, eq_comm]

/-- A byte is refused as unknown exactly when no row has it: what may be wrong with a row's operands is
refused by another name (R78). -/
theorem decode_cons_eq_unknownInstruction_iff {cfg : Config} {b : Byte} {ops : List Byte} :
    decode cfg (b :: ops) = .reject (.unknownInstruction b) ↔ Opcode.ofByte? b = none := by
  rw [decode]
  cases Opcode.ofByte? b with
  | none => simp
  | some o =>
    simp only [reduceCtorEq, iff_false]
    split
    · simp
    · cases o.assemble cfg (ops.getD 0 0) (ops.getD 1 0) <;> simp

/-- A well-formed instruction is as long as its row's format says (R70). -/
theorem Instr.length_of_wellFormed {cfg : Config} {i : Instr} (h : i.wellFormed cfg = true) :
    i.length = 1 + i.opcode.operandCount cfg :=
  congrArg (1 + ·) (Instr.operandBytes_length h)

/-- What is decoded belongs to the row of the first byte, and its length is the number of bytes consumed. -/
theorem opcode_and_length_of_decode {cfg : Config} {b : Byte} {ops rest : List Byte} {i : Instr}
    (h : decode cfg (b :: ops) = .instr i rest) :
    Opcode.ofByte? b = some i.opcode ∧ i.length = 1 + i.opcode.operandCount cfg ∧
      (b :: ops).length = i.length + rest.length := by
  obtain ⟨o, ho, hcount, ha, rfl⟩ := decode_cons_eq_instr_iff.mp h
  obtain ⟨rfl, hwf, -⟩ := Opcode.assemble_eq_instr ha
  have hlen := Instr.length_of_wellFormed hwf
  refine ⟨ho, hlen, ?_⟩
  rw [List.length_cons, List.length_drop, hlen]
  omega

end Sys2Proof

namespace Sys2Proof.Machine

/-! ### What stands in memory at a fetch -/

@[simp] theorem State.setPc_pc_self (s : State) : s.setPc s.pc = s := rfl

/-- The bytes of an instruction with `n` operand bytes: the opcode byte and the first `n` of the two that
follow it. -/
theorem State.instrBytes_one_add (s : State) {n : Nat} (h : n ≤ 2) :
    s.instrBytes (1 + n) = s.readMem s.pc :: [s.instrByte 1, s.instrByte 2].take n := by
  have hzero : s.instrByte 0 = s.readMem s.pc := congrArg s.readMem s.byteAddr_zero
  interval_cases n <;> simp [State.instrBytes, List.range_succ, hzero]

/-- The disassembler at the byte of a row (R92). -/
theorem State.disassembleAt_of_ofByte? {s : State} {a : Byte} {o : Opcode}
    (h : Opcode.ofByte? (s.readMem a) = some o) :
    s.disassembleAt a = .row o ((s.setPc a).instrBytes (1 + o.operandCount s.config)) := by
  simp [State.disassembleAt, h]

/-- What a fetched instruction says of memory: it is well formed, the byte at `pc` is of its row, and its
encoding lies from `pc` on. -/
theorem State.encode_at_pc_of_fetch {s : State} {i : Instr} (h : s.fetch = .instr i) :
    i.wellFormed s.config = true ∧ Opcode.ofByte? (s.readMem s.pc) = some i.opcode ∧
      s.instrBytes (1 + i.opcode.operandCount s.config) = encode i := by
  obtain ⟨-, o, ho, -, ha⟩ := State.fetch_eq_instr_iff.mp h
  obtain ⟨rfl, hwf, hops⟩ := Opcode.assemble_eq_instr ha
  refine ⟨hwf, ho, ?_⟩
  rw [State.instrBytes_one_add s (Opcode.operandCount_le_two _ _), encode, hops, Opcode.byte_of_ofByte? ho]

/-- Every byte of a fetched instruction may be fetched: the cycle checks the opcode address and then each
operand's (R84). -/
theorem State.fetchable_byteAddr_of_fetch {s : State} {i : Instr} (h : s.fetch = .instr i) {k : Nat}
    (hk : k < i.length) : s.fetchable (s.byteAddr k) := by
  obtain ⟨hpc, o, -, hoperands, ha⟩ := State.fetch_eq_instr_iff.mp h
  obtain ⟨rfl, hwf, -⟩ := Opcode.assemble_eq_instr ha
  rw [Instr.length_of_wellFormed hwf] at hk
  cases k with
  | zero => rwa [State.byteAddr_zero]
  | succ k => exact hoperands (k + 1) (by omega) (by omega)

end Sys2Proof.Machine

namespace Sys2Proof.Claims

open Sys2Proof.Machine

/-- Settles O18: both instructions are of the one row the first byte finds, whose format fixes the length. -/
theorem opcodeByteFixesLength : Obligations.OpcodeByteFixesLength := by
  intro cfg b ops ops' rest rest' i i' h h'
  obtain ⟨ho, hlen, hconsumed⟩ := opcode_and_length_of_decode h
  obtain ⟨ho', hlen', -⟩ := opcode_and_length_of_decode h'
  have hrow : i.opcode = i'.opcode := Option.some.inj (ho.symm.trans ho')
  exact ⟨by rw [hlen, hlen', hrow], hconsumed⟩

/-- Settles O19: a byte finds a row exactly when it is one of the thirteen, and the row found is the decoded
instruction's. -/
theorem opcodeByteMatchedWhole : Obligations.OpcodeByteMatchedWhole := by
  refine ⟨fun cfg b ops => ?unknown, fun cfg b ops rest i h => ?known, rfl⟩
  case unknown => exact decode_cons_eq_unknownInstruction_iff.trans ofByte?_eq_none_iff
  case known => exact Opcode.ofByte?_eq_some_iff.mp (opcode_and_length_of_decode h).1

/-- Settles O21: the bytes the fetch assembled are those that stand from `pc` on, and the disassembler takes
as many of them. -/
theorem fetchedInstructionStandsAtPc : Obligations.FetchedInstructionStandsAtPc := by
  intro s i h
  obtain ⟨hwf, ho, hbytes⟩ := State.encode_at_pc_of_fetch h
  refine ⟨hwf, ?bytes, fun k hk => State.fetchable_byteAddr_of_fetch h hk, ?disassembler⟩
  case bytes => rw [Instr.length_of_wellFormed hwf, hbytes]
  case disassembler => rw [State.disassembleAt_of_ofByte? ho, State.setPc_pc_self, hbytes]

end Sys2Proof.Claims
end

section
/-! PROOFS. The cycle of a row by its format, check by check in the order of R207, and LDI and HLT
(spec/40_register_io_halt.md: R100, R104). -/

namespace Sys2Proof.Machine

/-! ### What a register write and an update elsewhere keep -/

theorem State.regsKept_of_regs_eq {s t : State} (h : t.regs = s.regs) (written : List Reg) :
    s.regsKept t written :=
  fun q _ => congrArg (fun regs : Vector Byte 8 => regs[q.val]) h

theorem State.memKept_of_mem_eq {s t : State} (h : t.mem = s.mem) (stored : List Byte) :
    s.memKept t stored :=
  fun a _ => congrArg (fun m : Memory => m.read a.toNat) h

theorem State.regsKept_writeReg (s : State) (r : Reg) (v : Byte) : s.regsKept (s.writeReg r v) [r] :=
  fun _ hq => s.readReg_writeReg_ne (List.ne_of_not_mem_cons hq) v

/-! ### The checks of a cycle, in their order -/

/-- The opcode address is checked first, and the record of its fault holds no opcode (R84, R204; log entry 4). -/
theorem State.fetch_of_past {s : State} (h : ¬ s.fetchable s.pc) :
    s.fetch = .raises ⟨.endOfImage, s.pc, none, some s.pc⟩ := by
  simp [State.fetch, State.pastImage_eq_true_iff.mpr h]

theorem State.operandPastImage_of_past_one {s : State} {n : Nat} (hn : 1 ≤ n)
    (h1 : ¬ s.fetchable (s.pc + 1)) : s.operandPastImage n = some (s.pc + 1) := by
  obtain ⟨m, rfl⟩ := Nat.exists_eq_add_of_le' hn
  rw [State.operandPastImage, List.range_succ_eq_map, List.map_cons]
  exact List.find?_cons_of_pos (State.pastImage_eq_true_iff.mpr h1)

theorem State.operandPastImage_of_past_two {s : State} (h1 : s.fetchable (s.pc + 1))
    (h2 : ¬ s.fetchable (s.pc + 2)) : s.operandPastImage 2 = some (s.pc + 2) := by
  rw [State.operandPastImage_two, State.pastImage_eq_false_iff.mpr h1, State.pastImage_eq_true_iff.mpr h2]
  rfl

theorem State.operandPastImage_two_of_fetchable {s : State} (h1 : s.fetchable (s.pc + 1))
    (h2 : s.fetchable (s.pc + 2)) : s.operandPastImage 2 = none := by
  rw [State.operandPastImage_two, State.pastImage_eq_false_iff.mpr h1, State.pastImage_eq_false_iff.mpr h2]
  rfl

/-- A row of which an operand address is past the image (R84): the cycle raises EndOfImage there. -/
theorem State.raisesFault_of_row_past {s : State} {o : Opcode} {a : Byte} (hs : s.runState = .running)
    (hb : s.readMem s.pc = o.byte) (h0 : s.fetchable s.pc)
    (hp : s.operandPastImage (o.operandCount s.config) = some a) :
    s.raisesFault ⟨.endOfImage, s.pc, some o.byte, some a⟩ :=
  State.raisesFault_of_fetch hs ((State.fetch_of_row h0 hb).trans (State.fetchOperands_of_past hp))

/-- A row of which an operand byte names no register (R76): the cycle raises InvalidRegister. -/
theorem State.raisesFault_of_row_badRegister {s : State} {o : Opcode} {v : Byte} (hs : s.runState = .running)
    (hb : s.readMem s.pc = o.byte) (h0 : s.fetchable s.pc)
    (hp : s.operandPastImage (o.operandCount s.config) = none)
    (ha : o.assemble s.config (s.instrByte 1) (s.instrByte 2) = .badRegister v) :
    s.raisesFault ⟨.invalidRegister, s.pc, some o.byte, some v⟩ :=
  State.raisesFault_of_fetch hs ((State.fetch_of_row h0 hb).trans (State.fetchOperands_of_badRegister hp ha))

/-- A row whose checks all pass: the cycle executes its instruction (R80). -/
theorem step_of_row {s : State} {o : Opcode} {i : Instr} (hs : s.runState = .running)
    (hb : s.readMem s.pc = o.byte) (h0 : s.fetchable s.pc)
    (hp : s.operandPastImage (o.operandCount s.config) = none)
    (ha : o.assemble s.config (s.instrByte 1) (s.instrByte 2) = .instr i) : step s = exec i s :=
  step_of_fetch hs ((State.fetch_of_row h0 hb).trans (State.fetchOperands_of_instr hp ha))

end Sys2Proof.Machine

namespace Sys2Proof.Claims

open Sys2Proof.Machine

/-! ### The cycle by format -/

/-- A row that takes no operand byte has the cycle of format N. -/
theorem cycleN_of_row {s : State} {o : Opcode} {i : Instr} (hs : s.runState = .running)
    (hb : s.readMem s.pc = o.byte) (hn : o.operandCount s.config = 0)
    (ha : ∀ op1 op2, o.assemble s.config op1 op2 = .instr i) : CycleN s i := by
  refine ⟨fun h0 => State.raisesFault_of_fetch hs (State.fetch_of_past h0), fun h0 => ?_⟩
  exact step_of_row hs hb h0 (hn ▸ s.operandPastImage_zero) (ha _ _)

/-- A row that takes a register operand and an immediate has the cycle of format RI. -/
theorem cycleRI_of_row {s : State} {o : Opcode} {mk : Reg → Byte → Instr} (hs : s.runState = .running)
    (hb : s.readMem s.pc = o.byte) (hn : o.operandCount s.config = 2)
    (ha : ∀ op1 op2, o.assemble s.config op1 op2 = withReg op1 fun r => .instr (mk r op2)) :
    CycleRI s o.byte mk := by
  refine ⟨fun h0 => ?opcodePast, fun h0 h1 => ?onePast, fun h0 h1 h2 => ?twoPast, fun h0 h1 h2 => ?fetched⟩
  case opcodePast => exact State.raisesFault_of_fetch hs (State.fetch_of_past h0)
  case onePast =>
    exact State.raisesFault_of_row_past hs hb h0 (State.operandPastImage_of_past_one (by omega) h1)
  case twoPast =>
    exact State.raisesFault_of_row_past hs hb h0 (hn ▸ State.operandPastImage_of_past_two h1 h2)
  case fetched =>
    have hp : s.operandPastImage (o.operandCount s.config) = none :=
      hn ▸ State.operandPastImage_two_of_fetchable h1 h2
    constructor
    · intro hbad
      exact State.raisesFault_of_row_badRegister hs hb h0 hp ((ha _ _).trans (withReg_of_invalid hbad _))
    · intro r hr
      exact step_of_row hs hb h0 hp ((ha _ _).trans (withReg_of_toNat hr _))

/-! ### LDI and HLT -/

/-- Settles O1: LDI is one register write and an advance by 3, and its row is of format RI. -/
theorem ldiLoadsImmediate : Obligations.LdiLoadsImmediate := by
  refine ⟨fun r imm s => ?effect, fun r imm => rfl, fun s hs hb => ?cycle⟩
  case effect =>
    have hexec : exec (.ldi r imm) s = .next ((s.writeReg r imm).advance 3) := rfl
    exact ⟨_, hexec, s.readReg_writeReg_self r imm, rfl, rfl, rfl, s.regsKept_writeReg r imm,
      State.memKept_of_mem_eq rfl [], rfl, rfl, rfl, rfl, rfl⟩
  case cycle => exact cycleRI_of_row (o := .ldi) hs hb rfl fun _ _ => rfl

/-- Settles O3: HLT is an advance by 1 into Halted, where no cycle is enabled, and its row is of format N. -/
theorem hltEndsTheRun : Obligations.HltEndsTheRun := by
  refine ⟨fun s => ?effect, rfl, fun s hs hb => ?cycle⟩
  case effect =>
    have hexec : exec .hlt s = .next (s.advance 1).halt := rfl
    exact ⟨_, hexec, rfl, rfl, rfl, rfl, State.regsKept_of_regs_eq rfl [], State.memKept_of_mem_eq rfl [],
      rfl, rfl, rfl, rfl, step_ne_next_of_ne_running nofun⟩
  case cycle => exact cycleN_of_row (o := .hlt) hs hb rfl fun _ _ => rfl

end Sys2Proof.Claims
end

section
/-! PROOFS. The cycle of format RR, and MUL, ADD and CMP (spec/41_alu.md: R120, R123, R126, R129). -/

namespace Sys2Proof.Machine

/-! ### What the ALU computes and compares -/

theorem aluMul_toNat (a b : Byte) : (aluMul a b).toNat = a.toNat * b.toNat % 256 := BitVec.toNat_ofNat _ _

theorem aluAdd_toNat (a b : Byte) : (aluAdd a b).toNat = (a.toNat + b.toNat) % 256 := BitVec.toNat_ofNat _ _

theorem compareFlags_of_eq {a b : Byte} (h : a.toNat = b.toNat) : compareFlags a b = 0b001 :=
  if_pos (BitVec.eq_of_toNat_eq h)

theorem compareFlags_of_lt {a b : Byte} (h : a.toNat < b.toNat) : compareFlags a b = 0b100 := by
  have hne : a ≠ b := fun heq => h.ne (congrArg BitVec.toNat heq)
  rw [compareFlags, if_neg hne, if_pos h]

theorem compareFlags_of_gt {a b : Byte} (h : b.toNat < a.toNat) : compareFlags a b = 0b010 := by
  have hne : a ≠ b := fun heq => h.ne' (congrArg BitVec.toNat heq)
  rw [compareFlags, if_neg hne, if_neg h.not_gt]

/-- An FL that CMP may leave has exactly one of E, G and L set (R27). -/
theorem State.count_flags_eq_one {s : State} (h : s.fl = 0b001 ∨ s.fl = 0b010 ∨ s.fl = 0b100) :
    [s.flagE, s.flagG, s.flagL].count true = 1 := by
  unfold State.flagE State.flagG State.flagL
  obtain h | h | h := h <;> rw [h] <;> rfl

/-! ### What the three instructions leave -/

/-- MUL is one register write and an advance by 3 (R120). -/
theorem exec_mul_eq (a b : Reg) (s : State) :
    exec (.mul a b) s = .next ((s.writeReg a (aluMul (s.readReg a) (s.readReg b))).advance 3) := rfl

/-- ADD is one register write and an advance by 3 (R123). -/
theorem exec_add_eq (a b : Reg) (s : State) :
    exec (.add a b) s = .next ((s.writeReg a (aluAdd (s.readReg a) (s.readReg b))).advance 3) := rfl

/-- CMP is one write of FL and an advance by 3 (R126). -/
theorem exec_cmp_eq (a b : Reg) (s : State) :
    exec (.cmp a b) s = .next ((s.setFl (compareFlags (s.readReg a) (s.readReg b))).advance 3) := rfl

/-- What an instruction that writes one register and goes on leaves: the value, and all else but `pc` kept. -/
theorem State.writeReg_advance_frame (s : State) (r : Reg) (v : Byte) (n : Nat) :
    let t := (s.writeReg r v).advance n
    t.readReg r = v ∧ t.pc = s.pc + BitVec.ofNat 8 n ∧ t.fl = s.fl ∧ t.out = s.out ∧
      s.regsKept t [r] ∧ s.memKept t [] ∧ s.hostKept t :=
  ⟨s.readReg_writeReg_self r v, rfl, rfl, rfl, s.regsKept_writeReg r v, State.memKept_of_mem_eq rfl [],
    rfl, rfl, rfl, rfl, rfl⟩

end Sys2Proof.Machine

namespace Sys2Proof.Claims

open Sys2Proof.Machine

/-- A row that takes two register operands has the cycle of format RR: the second is checked once the first
names a register (R207). -/
theorem cycleRR_of_row {s : State} {o : Opcode} {mk : Reg → Reg → Instr} (hs : s.runState = .running)
    (hb : s.readMem s.pc = o.byte) (hn : o.operandCount s.config = 2)
    (ha : ∀ op1 op2, o.assemble s.config op1 op2 =
      withReg op1 fun x => withReg op2 fun y => .instr (mk x y)) :
    CycleRR s o.byte mk := by
  refine ⟨fun h0 => ?opcodePast, fun h0 h1 => ?onePast, fun h0 h1 h2 => ?twoPast, fun h0 h1 h2 => ?fetched⟩
  case opcodePast => exact State.raisesFault_of_fetch hs (State.fetch_of_past h0)
  case onePast =>
    exact State.raisesFault_of_row_past hs hb h0 (State.operandPastImage_of_past_one (by omega) h1)
  case twoPast =>
    exact State.raisesFault_of_row_past hs hb h0 (hn ▸ State.operandPastImage_of_past_two h1 h2)
  case fetched =>
    have hp : s.operandPastImage (o.operandCount s.config) = none :=
      hn ▸ State.operandPastImage_two_of_fetchable h1 h2
    have hfirst {x : Reg} (hx : (s.readMem (s.pc + 1)).toNat = x.val) :
        o.assemble s.config (s.instrByte 1) (s.instrByte 2) =
          withReg (s.readMem (s.pc + 2)) fun y => .instr (mk x y) :=
      (ha _ _).trans (withReg_of_toNat hx _)
    refine ⟨fun hbad => ?firstBad, fun hlt hbad => ?secondBad, fun x y hx hy => ?runs⟩
    case firstBad =>
      exact State.raisesFault_of_row_badRegister hs hb h0 hp ((ha _ _).trans (withReg_of_invalid hbad _))
    case secondBad =>
      exact State.raisesFault_of_row_badRegister hs hb h0 hp
        ((hfirst (x := ⟨_, hlt⟩) rfl).trans (withReg_of_invalid hbad _))
    case runs => exact step_of_row hs hb h0 hp ((hfirst hx).trans (withReg_of_toNat hy _))

/-! ### MUL, ADD and CMP -/

/-- Settles O4: MUL writes one register, to the product as `aluMul_toNat` gives it, and its row is of format
RR. -/
theorem mulKeepsLowByteOfProduct : Obligations.MulKeepsLowByteOfProduct := by
  refine ⟨fun a b s => ?effect, fun a b => rfl, fun s hs hb => ?cycle⟩
  case effect =>
    obtain ⟨hval, hframe⟩ := s.writeReg_advance_frame a (aluMul (s.readReg a) (s.readReg b)) 3
    exact ⟨_, exec_mul_eq a b s, by rw [hval, aluMul_toNat], hframe⟩
  case cycle => exact cycleRR_of_row (o := .mul) hs hb rfl fun _ _ => rfl

/-- Settles O5: ADD writes one register, to the sum as `aluAdd_toNat` gives it, and its row is of format RR. -/
theorem addKeepsLowByteOfSum : Obligations.AddKeepsLowByteOfSum := by
  refine ⟨fun a b s => ?effect, fun a b => rfl, fun s hs hb => ?cycle⟩
  case effect =>
    obtain ⟨hval, hframe⟩ := s.writeReg_advance_frame a (aluAdd (s.readReg a) (s.readReg b)) 3
    exact ⟨_, exec_add_eq a b s, by rw [hval, aluAdd_toNat], hframe⟩
  case cycle => exact cycleRR_of_row (o := .add) hs hb rfl fun _ _ => rfl

/-- Settles O6: CMP writes FL alone, to one of the three values of `compareFlags_cases`, each for its outcome of
the comparison, and its row is of format RR. -/
theorem cmpWritesUnsignedComparison : Obligations.CmpWritesUnsignedComparison := by
  refine ⟨fun a b s => ?effect, fun a b => rfl, fun s hs hb => ?cycle⟩
  case effect =>
    exact ⟨_, exec_cmp_eq a b s, compareFlags_of_eq, compareFlags_of_lt, compareFlags_of_gt,
      State.count_flags_eq_one (compareFlags_cases _ _), rfl, rfl, State.regsKept_of_regs_eq rfl [],
      State.memKept_of_mem_eq rfl [], rfl, rfl, rfl, rfl, rfl⟩
  case cycle => exact cycleRR_of_row (o := .cmp) hs hb rfl fun _ _ => rfl

/-- Settles O32: the results O5 and O4 give are remainders modulo 256, so that the sum and the product exceed
them by 256 times the quotient. -/
theorem arithmeticWrapsWithoutFaultOrFlag : Obligations.ArithmeticWrapsWithoutFaultOrFlag := by
  refine fun a b s => ⟨?add, ?mul⟩
  case add =>
    obtain ⟨haddAll, -⟩ := addKeepsLowByteOfSum
    obtain ⟨t, hexec, hval, -, hfl, -, -, -, hrun, -⟩ := haddAll a b s
    exact ⟨t, hexec, hfl, hrun, (t.readReg a).isLt, _, by rw [hval]; exact (Nat.div_add_mod _ 256).symm⟩
  case mul =>
    obtain ⟨hmulAll, -⟩ := mulKeepsLowByteOfProduct
    obtain ⟨t, hexec, hval, -, hfl, -, -, -, hrun, -⟩ := hmulAll a b s
    exact ⟨t, hexec, hfl, hrun, (t.readReg a).isLt, _, by rw [hval]; exact (Nat.div_add_mod _ 256).symm⟩

end Sys2Proof.Claims
end

section
/-! PROOFS. The stack: the cycle of format R, PUSH and POP, and SP as the balance of what has been executed
(spec/42_stack.md: R140, R142, R144, R145). -/

namespace Sys2Proof.Machine

/-! ### SP through the other updates -/

@[simp] theorem State.writeMem_sp (s : State) (a v : Byte) : (s.writeMem a v).sp = s.sp := rfl
@[simp] theorem State.setPc_sp (s : State) (a : Byte) : (s.setPc a).sp = s.sp := rfl
@[simp] theorem State.advance_sp (s : State) (n : Nat) : (s.advance n).sp = s.sp := rfl

theorem State.writeReg_sp_of_ne (s : State) {r : Reg} (h : r ≠ 7) (v : Byte) : (s.writeReg r v).sp = s.sp :=
  s.readReg_writeReg_ne h.symm v

theorem State.memKept_writeMem (s : State) (a v : Byte) : s.memKept (s.writeMem a v) [a] :=
  fun b hb => (s.readMem_writeMem a v b).trans (if_neg (List.ne_of_not_mem_cons hb))

theorem State.regsKept_writeReg_incSp (s : State) (r : Reg) (v : Byte) :
    s.regsKept (s.writeReg r v).incSp [r, 7] := by
  intro q hq
  obtain ⟨hqr, hq7⟩ : q ≠ r ∧ q ≠ 7 := by simpa using hq
  rw [State.incSp_readReg, if_neg hq7, State.readReg_writeReg_ne s hqr]

/-- What POP leaves (R142, D10): SP is raised as the load left it. -/
theorem exec_pop_eq (r : Reg) (s : State) :
    exec (.pop r) s = .next ((s.writeReg r (s.readMem s.sp)).incSp.advance 2) := rfl

theorem State.operandPastImage_one_of_fetchable {s : State} (h : s.fetchable (s.pc + 1)) :
    s.operandPastImage 1 = none := by
  rw [State.operandPastImage_one, State.pastImage_eq_false_iff.mpr h]
  rfl

/-! ### The balance (R145) -/

/-- What R145 says a list of executed instructions adds to SP: pops and returns less pushes and calls. -/
def spBalance (is : List Instr) : Byte :=
  BitVec.ofNat 8 (countOpcode .pop is) + BitVec.ofNat 8 (countOpcode .ret is)
    - BitVec.ofNat 8 (countOpcode .push is) - BitVec.ofNat 8 (countOpcode .call is)

/-- What one executed instruction of a row adds to the balance. -/
def spChange : Opcode → Byte
  | .push | .call => -1
  | .pop | .ret => 1
  | _ => 0

theorem countOpcode_cons (o : Opcode) (i : Instr) (is : List Instr) :
    countOpcode o (i :: is) = countOpcode o is + if i.opcode = o then 1 else 0 := by
  simp [countOpcode, List.countP_cons]

theorem spBalance_cons (i : Instr) (is : List Instr) :
    spBalance (i :: is) = spChange i.opcode + spBalance is := by
  simp only [spBalance, countOpcode_cons, BitVec.ofNat_add]
  cases i.opcode <;> simp [spChange, -BitVec.reduceNeg] <;> ring

/-- A RET that writes no register is of format N. -/
theorem eq_none_of_ret_writesSpDirectly {operand : Option Reg}
    (h : writesSpDirectly (.ret operand) = false) : operand = none :=
  Option.isNone_iff_eq_none.mp (Option.isSome_eq_false_iff.mp h)

/-- An instruction that does not write `x[7]` as its destination moves SP by what its row adds to the balance. -/
theorem exec_sp_eq {i : Instr} {s t : State} (h : exec i s = .next t) (hi : writesSpDirectly i = false) :
    t.sp = s.sp + spChange i.opcode := by
  cases i with
  | ldi r _ | mul r _ | add r _ =>
    cases h
    exact (s.writeReg_sp_of_ne (ne_of_beq_false hi) _).trans (add_zero s.sp).symm
  | prn _ | hlt | cmp _ _ | jmp _ =>
    cases h
    exact (add_zero s.sp).symm
  | jeq _ => obtain ⟨-, rfl⟩ | ⟨-, rfl⟩ := exec_jeq_cases h <;> exact (add_zero s.sp).symm
  | jne _ => obtain ⟨-, rfl⟩ | ⟨-, rfl⟩ := exec_jne_cases h <;> exact (add_zero s.sp).symm
  | push _ | call _ =>
    cases h
    exact s.decSp_sp.trans (sub_eq_add_neg s.sp 1)
  | pop r =>
    cases h
    rw [State.advance_sp, State.incSp_sp, s.writeReg_sp_of_ne (ne_of_beq_false hi)]
    rfl
  | ret operand =>
    obtain rfl := eq_none_of_ret_writesSpDirectly hi
    cases h
    exact State.incSp_sp _

/-- R145 along a run: each instruction executed adds what its row does. -/
theorem Executes.sp_eq {s t : State} {is : List Instr} (h : Executes s is t)
    (his : ∀ i ∈ is, writesSpDirectly i = false) : t.sp = s.sp + spBalance is := by
  induction h with
  | nil s₀ => exact (add_zero s₀.sp).symm
  | cons hrun hfetch hexec hrest ih =>
    obtain ⟨hi, htail⟩ := List.forall_mem_cons.mp his
    rw [ih htail, exec_sp_eq hexec hi, spBalance_cons, add_assoc]

end Sys2Proof.Machine

namespace Sys2Proof.Claims

open Sys2Proof.Machine

/-- A row that takes one register operand has the cycle of format R. -/
theorem cycleR_of_row {s : State} {o : Opcode} {mk : Reg → Instr} (hs : s.runState = .running)
    (hb : s.readMem s.pc = o.byte) (hn : o.operandCount s.config = 1)
    (ha : ∀ op1 op2, o.assemble s.config op1 op2 = withReg op1 fun r => .instr (mk r)) :
    CycleR s o.byte mk := by
  refine ⟨fun h0 => ?opcodePast, fun h0 h1 => ?operandPast, fun h0 h1 => ?fetched⟩
  case opcodePast => exact State.raisesFault_of_fetch hs (State.fetch_of_past h0)
  case operandPast =>
    exact State.raisesFault_of_row_past hs hb h0 (State.operandPastImage_of_past_one hn.ge h1)
  case fetched =>
    have hp : s.operandPastImage (o.operandCount s.config) = none :=
      hn ▸ State.operandPastImage_one_of_fetchable h1
    constructor
    · intro hbad
      exact State.raisesFault_of_row_badRegister hs hb h0 hp ((ha _ _).trans (withReg_of_invalid hbad _))
    · intro r hr
      exact step_of_row hs hb h0 hp ((ha _ _).trans (withReg_of_toNat hr _))

/-- Settles O40: the balance that `Executes.sp_eq` gives, with its terms in the order of the statement. -/
theorem stackPointerIsTheBalance : Obligations.StackPointerIsTheBalance := by
  intro s t is hrun his
  rw [hrun.sp_eq his, spBalance]
  ring

/-- Settles O7: PUSH is a decrement of SP, a store at the new SP and an advance by 2, and its row is of
format R. -/
theorem pushStoresBelowSp : Obligations.PushStoresBelowSp := by
  refine ⟨fun r s => ?effect, fun r => rfl, fun s hs hb => ?cycle⟩
  case effect =>
    exact ⟨_, exec_push_eq r s, s.decSp_sp, s.pushAddr_eq, State.readMem_writeMem_self _ _ _, rfl, rfl, rfl,
      s.regsKept_writeReg spReg s.pushAddr, s.decSp.memKept_writeMem s.pushAddr _, rfl, rfl, rfl, rfl, rfl⟩
  case cycle => exact cycleR_of_row (o := .push) hs hb rfl fun _ _ => rfl

/-- Settles O8: POP is a register write, an increment of SP as that write left it and an advance by 2, and its
row is of format R. -/
theorem popLoadsFromSp : Obligations.PopLoadsFromSp := by
  refine ⟨fun r s => ?effect, fun r => rfl, fun s hs hb => ?cycle⟩
  case effect =>
    refine ⟨_, exec_pop_eq r s, fun hr => ⟨?loaded, ?raised⟩, fun hr => ?loadedThenRaised, rfl, rfl, rfl,
      s.regsKept_writeReg_incSp r _, State.memKept_of_mem_eq rfl [], rfl, rfl, rfl, rfl, rfl⟩
    case loaded => simp [State.incSp_readReg, hr]
    case raised => simp [State.writeReg_sp_of_ne s hr]
    case loadedThenRaised => subst hr; simp [State.sp_eq, State.incSp_readReg]
  case cycle => exact cycleR_of_row (o := .pop) hs hb rfl fun _ _ => rfl

/-- Settles O38: PUSH leaves the value at the new SP (O7), where POP finds it and leaves it (O8). -/
theorem pushThenPopRoundTrips : Obligations.PushThenPopRoundTrips := by
  intro r q s hr hq
  obtain ⟨hpushAll, -⟩ := pushStoresBelowSp
  obtain ⟨hpopAll, -⟩ := popLoadsFromSp
  obtain ⟨t, hpush, htsp, haddr, hstored, -⟩ := hpushAll r s
  obtain ⟨u, hpop, hother, -, -, -, -, -, hmem, -⟩ := hpopAll q t
  obtain ⟨hloaded, husp⟩ := hother hq
  have hbelow : t.readMem (s.sp - 1) = s.readReg r := by rw [← haddr, hstored, if_neg hr]
  refine ⟨t, u, hpush, hpop, ?carried, ?restored, ?left⟩
  case carried => rw [hloaded, htsp, hbelow]
  case restored => rw [husp, htsp, sub_add_cancel]
  case left => rw [hmem _ List.not_mem_nil, hbelow]

end Sys2Proof.Claims
end

section
/-! PROOFS. CALL, RET in both formats, JMP, JEQ and JNE (spec/43_control.md: R160, R161, R163, R166, R168, R170,
R172). -/

namespace Sys2Proof.Machine

/-! ### What the five instructions leave -/

/-- RET in format N is a write of `pc` and an increment of SP (R163). -/
theorem exec_ret_none_eq (s : State) :
    exec (.ret none) s = .next (s.setPc (s.readMem s.sp)).incSp := rfl

/-- RET in format R is a register write, a write of `pc` and an increment of SP (R166). -/
theorem exec_ret_some_eq {r : Reg} (hr : r ≠ 7) (s : State) :
    exec (.ret (some r)) s = .next ((s.writeReg r (s.readMem s.sp)).setPc (s.readMem s.sp)).incSp :=
  if_neg hr

/-- RET in format R with operand 7 raises CompatRetSP (R205). -/
theorem exec_ret_sp_eq (s : State) :
    exec (.ret (some 7)) s = .next (s.raiseFault ⟨.compatRetSP, s.pc, some 0x11, some 7⟩) := rfl

/-- JMP is one write of `pc` (R168). -/
theorem exec_jmp_eq (r : Reg) (s : State) : exec (.jmp r) s = .next (s.setPc (s.readReg r)) := rfl

/-- JEQ is one write of `pc`, to the target when bit 0 of FL is 1 (R170). -/
theorem exec_jeq_eq (r : Reg) (s : State) :
    exec (.jeq r) s = .next (s.setPc (if s.fl.toNat % 2 = 1 then s.readReg r else s.pc + 2)) := by
  simp only [exec, execJeq, State.flagE_eq_decide, decide_eq_true_eq]
  split <;> rfl

/-- JNE is one write of `pc`, to the instruction that follows when bit 0 of FL is 1 (R172). -/
theorem exec_jne_eq (r : Reg) (s : State) :
    exec (.jne r) s = .next (s.setPc (if s.fl.toNat % 2 = 1 then s.pc + 2 else s.readReg r)) := by
  simp only [exec, execJne, State.flagE_eq_decide, decide_eq_true_eq]
  split <;> rfl

/-- A write of `pc` keeps all else. -/
theorem State.setPc_frame (s : State) (a : Byte) :
    (s.setPc a).fl = s.fl ∧ (s.setPc a).out = s.out ∧
      s.regsKept (s.setPc a) [] ∧ s.memKept (s.setPc a) [] ∧ s.hostKept (s.setPc a) :=
  ⟨rfl, rfl, State.regsKept_of_regs_eq rfl [], State.memKept_of_mem_eq rfl [], rfl, rfl, rfl, rfl, rfl⟩

end Sys2Proof.Machine

namespace Sys2Proof.Claims

open Sys2Proof.Machine

/-! ### CALL and RET -/

/-- Settles O9: CALL is a decrement of SP, a store of the return address at the new SP and a write of `pc`, and
its row is of format R. -/
theorem callPushesReturnAddress : Obligations.CallPushesReturnAddress := by
  refine ⟨fun r s => ?effect, fun r => rfl, fun s hs hb => ?cycle⟩
  case effect =>
    exact ⟨_, exec_call_eq r s, s.decSp_sp, s.pushAddr_eq, State.readMem_writeMem_self _ _ _, rfl, rfl, rfl,
      s.regsKept_writeReg spReg s.pushAddr, s.decSp.memKept_writeMem s.pushAddr _, rfl, rfl, rfl, rfl, rfl⟩
  case cycle => exact cycleR_of_row (o := .call) hs hb rfl fun _ _ => rfl

/-- Settles O10: RET without operand is a write of `pc` and an increment of SP, and without
`RET_WRITES_REGISTER` its row is of format N. -/
theorem retPopsProgramCounter : Obligations.RetPopsProgramCounter := by
  refine ⟨fun s => ?effect, rfl, fun s hs hc hb => ?cycle⟩
  case effect =>
    exact ⟨_, exec_ret_none_eq s, rfl, State.incSp_sp _, rfl, rfl, s.regsKept_writeReg spReg _,
      State.memKept_of_mem_eq rfl [], rfl, rfl, rfl, rfl, rfl⟩
  case cycle =>
    have hcount : Opcode.ret.operandCount s.config = 0 := by
      rw [Opcode.operandCount, Opcode.format, hc]; rfl
    exact cycleN_of_row (o := .ret) hs hb hcount fun op1 op2 => by simp [Opcode.assemble, hc]

/-- Settles O11: RET with an operand also writes that register, unless it is SP, which the fault leaves alone,
and under `RET_WRITES_REGISTER` its row is of format R. -/
theorem compatRetWritesRegister : Obligations.CompatRetWritesRegister := by
  refine ⟨fun r s hr => ?effect, fun s => ?sp, fun r => rfl, fun s hs hc hb => ?cycle⟩
  case effect =>
    refine ⟨_, exec_ret_some_eq hr s, ?loaded, rfl, ?raised, rfl, rfl, s.regsKept_writeReg_incSp r _,
      State.memKept_of_mem_eq rfl [], rfl, rfl, rfl, rfl, rfl⟩
    case loaded => simp [State.incSp_readReg, hr]
    case raised => simp [State.writeReg_sp_of_ne s hr]
  case sp => exact ⟨_, exec_ret_sp_eq s, s.faultedFrom_raiseFault _⟩
  case cycle =>
    have hcount : Opcode.ret.operandCount s.config = 1 := by
      rw [Opcode.operandCount, Opcode.format, hc]; rfl
    exact cycleR_of_row (o := .ret) hs hb hcount fun op1 op2 => by simp [Opcode.assemble, hc]

/-- Settles O39: CALL leaves its return address at the new SP (O9), and RET takes `pc` from there (O10). -/
theorem callThenRetResumesAfterCall : Obligations.CallThenRetResumesAfterCall := by
  intro r s t u hcall husp hubyte
  obtain ⟨hcallAll, -⟩ := callPushesReturnAddress
  obtain ⟨hretAll, -⟩ := retPopsProgramCounter
  obtain ⟨t', hcall', htsp, haddr, hstored, -⟩ := hcallAll r s
  obtain rfl : t' = t := by cases hcall'.symm.trans hcall; rfl
  obtain ⟨v, hret, hpc, hvsp, -⟩ := hretAll u
  refine ⟨v, hret, ?resumed, ?restored⟩
  case resumed => rw [hpc, hubyte, htsp, ← haddr, hstored]
  case restored => rw [hvsp, husp, htsp, sub_add_cancel]

/-! ### JMP, JEQ and JNE -/

/-- Settles O12: JMP is one write of `pc`, and its row is of format R. -/
theorem jmpSetsProgramCounter : Obligations.JmpSetsProgramCounter := by
  refine ⟨fun r s => ?effect, fun r => rfl, fun s hs hb => ?cycle⟩
  case effect => exact ⟨_, exec_jmp_eq r s, rfl, s.setPc_frame _⟩
  case cycle => exact cycleR_of_row (o := .jmp) hs hb rfl fun _ _ => rfl

/-- Settles O13: JEQ is one write of `pc`, chosen by bit 0 of FL, and its row is of format R. -/
theorem jeqJumpsOnEqual : Obligations.JeqJumpsOnEqual := by
  refine ⟨fun r s => ?effect, fun r => rfl, fun s hs hb => ?cycle⟩
  case effect =>
    exact ⟨_, exec_jeq_eq r s, fun hE => if_pos hE, fun hE => if_neg (by omega), s.setPc_frame _⟩
  case cycle => exact cycleR_of_row (o := .jeq) hs hb rfl fun _ _ => rfl

/-- Settles O14: JNE is one write of `pc`, chosen by bit 0 of FL, and its row is of format R. -/
theorem jneJumpsOnNotEqual : Obligations.JneJumpsOnNotEqual := by
  refine ⟨fun r s => ?effect, fun r => rfl, fun s hs hb => ?cycle⟩
  case effect =>
    exact ⟨_, exec_jne_eq r s, fun hE => if_neg (by omega), fun hE => if_pos hE, s.setPc_frame _⟩
  case cycle => exact cycleR_of_row (o := .jne) hs hb rfl fun _ _ => rfl

end Sys2Proof.Claims
end

section
/-! PROOFS. PRN, the checks of a cycle in their order, and what a step that faults leaves
(spec/40_register_io_halt.md R102; spec/60_exceptions.md: R200 to R207, R210, R211). -/

namespace Sys2Proof

/-! ### Register operand bytes that name no register -/

/-- Every row with an operand byte has a register operand first, and checks it first (R207). -/
theorem Opcode.assemble_of_invalid_one {cfg : Config} {o : Opcode} {op1 : Byte} (op2 : Byte)
    (hn : 1 ≤ o.operandCount cfg) (h1 : 8 ≤ op1.toNat) : o.assemble cfg op1 op2 = .badRegister op1 := by
  cases o with
  | hlt => exact absurd hn (Nat.not_succ_le_zero 0)
  | ret =>
    cases hc : cfg.retWritesRegister with
    | false => simp [Opcode.operandCount, Opcode.format, Format.operandCount, hc] at hn
    | true => simp [Opcode.assemble, hc, withReg_of_invalid h1]
  | _ => exact withReg_of_invalid h1 _

/-- A row of format RR checks its second operand byte once the first names a register (R207). -/
theorem Opcode.assemble_of_invalid_two {cfg : Config} {o : Opcode} {op1 op2 : Byte}
    (hf : o.format cfg = .rr) (h1 : op1.toNat < 8) (h2 : 8 ≤ op2.toNat) :
    o.assemble cfg op1 op2 = .badRegister op2 := by
  cases o with
  | mul | add | cmp => exact (withReg_of_toNat (r := ⟨_, h1⟩) rfl _).trans (withReg_of_invalid h2 _)
  | ret => cases hc : cfg.retWritesRegister <;> simp [Opcode.format, hc] at hf
  | _ => cases hf

/-- RET with the operand byte 7 is read under `RET_WRITES_REGISTER` (R166). -/
theorem Opcode.assemble_ret_sp {cfg : Config} (hc : cfg.retWritesRegister = true) (op2 : Byte) :
    Opcode.ret.assemble cfg 7 op2 = .instr (.ret (some 7)) := by
  rw [Opcode.assemble, if_pos hc, withReg_of_toNat (b := 7) (r := 7) rfl]

end Sys2Proof

namespace Sys2Proof.Machine

/-- What PRN leaves (R102). -/
theorem exec_prn_eq (r : Reg) (s : State) : exec (.prn r) s = .next ((s.emit (s.readReg r)).advance 2) := rfl

/-! ### What the fetch raises -/

/-- An opcode byte of no row raises UnknownInstruction (R78, R202). -/
theorem State.fetch_of_unknown {s : State} (h : s.fetchable s.pc)
    (ho : Opcode.ofByte? (s.readMem s.pc) = none) :
    s.fetch = .raises ⟨.unknownInstruction, s.pc, some (s.readMem s.pc), none⟩ := by
  simp [State.fetch, State.pastImage_eq_false_iff.mpr h, ho]

/-- The operands raise EndOfImage or InvalidRegister, each at `pc` (R203, R204). -/
theorem State.fetchOperands_raises {s : State} {opc : Byte} {o : Opcode} {r : FaultRecord}
    (h : s.fetchOperands opc o = .raises r) :
    r.pc = s.pc ∧ (r.kind = .endOfImage ∨ r.kind = .invalidRegister) := by
  unfold State.fetchOperands at h
  split at h
  · cases h; exact ⟨rfl, .inl rfl⟩
  · split at h <;> cases h
    exact ⟨rfl, .inr rfl⟩

/-- No fault of the fetch is an ALUSelectorError, and each record holds `pc` (R201, R206). -/
theorem State.fetch_raises {s : State} {r : FaultRecord} (h : s.fetch = .raises r) :
    r.pc = s.pc ∧ r.kind ≠ .aluSelectorError := by
  by_cases h0 : s.fetchable s.pc
  · obtain ⟨-, hf⟩ | ⟨o, -, hf⟩ := State.fetch_of_fetchable h0
    · cases hf.symm.trans h; exact ⟨rfl, nofun⟩
    · obtain ⟨hpc, hk | hk⟩ := State.fetchOperands_raises (hf.symm.trans h) <;> simp [hpc, hk]
  · cases (State.fetch_of_past h0).symm.trans h; exact ⟨rfl, nofun⟩

/-! ### What a step leaves of the fault record -/

/-- Only RET with operand 7 writes the fault record (R205). -/
theorem exec_faultRecord_of_ne_ret_sp {i : Instr} {s t : State} (h : exec i s = .next t)
    (hi : i ≠ .ret (some 7)) : t.faultRecord = s.faultRecord := by
  cases i with
  | ret operand =>
    obtain ⟨-, rfl⟩ | ⟨r, -, -, rfl⟩ | ⟨hsp, -⟩ := exec_ret_cases h
    · rfl
    · rfl
    · exact absurd (congrArg Instr.ret hsp) hi
  | jeq r => obtain ⟨-, rfl⟩ | ⟨-, rfl⟩ := exec_jeq_cases h <;> rfl
  | jne r => obtain ⟨-, rfl⟩ | ⟨-, rfl⟩ := exec_jne_cases h <;> rfl
  | _ => cases h; rfl

/-- A step either does not fault and keeps the fault record, or is the fault entry of R200 with a record of
`pc` that is no ALUSelectorError. -/
theorem step_fault_cases {s t : State} (h : step s = .next t) :
    (t.runState ≠ .faulted ∧ t.faultRecord = s.faultRecord) ∨
    ∃ r : FaultRecord, r.pc = s.pc ∧ r.kind ≠ .aluSelectorError ∧ t = s.raiseFault r := by
  obtain ⟨hrun, ⟨i, -, hex⟩ | ⟨r, hf, rfl⟩⟩ := step_eq_next_iff.mp h
  · obtain ⟨-, hi, ht⟩ | ⟨rfl, ht⟩ | ⟨rfl, -⟩ := exec_runState_cases hex
    · exact .inl ⟨by simp [ht, hrun], exec_faultRecord_of_ne_ret_sp hex hi⟩
    · exact .inl ⟨by simp [ht], exec_faultRecord_of_ne_ret_sp hex nofun⟩
    · cases (exec_ret_sp_eq s).symm.trans hex
      exact .inr ⟨⟨.compatRetSP, s.pc, some 0x11, some 7⟩, rfl, nofun, rfl⟩
  · obtain ⟨hpc, hkind⟩ := State.fetch_raises hf
    exact .inr ⟨r, hpc, hkind, rfl⟩

/-- No step follows a fault (R211). -/
theorem step_raiseFault_ne_next (s : State) (r : FaultRecord) (u : State) :
    step (s.raiseFault r) ≠ .next u :=
  step_ne_next_of_ne_running (by simp) u

end Sys2Proof.Machine

namespace Sys2Proof.Claims

open Sys2Proof.Machine

/-- Settles O2: PRN is an output and an advance by 2, and its row is of format R. -/
theorem prnAppendsToOutput : Obligations.PrnAppendsToOutput := by
  refine ⟨fun r s => ?effect, fun r => rfl, fun s hs hb => ?cycle⟩
  case effect =>
    exact ⟨_, exec_prn_eq r s, rfl, rfl, rfl, State.regsKept_of_regs_eq rfl [],
      State.memKept_of_mem_eq rfl [], rfl, rfl, rfl, rfl, rfl⟩
  case cycle => exact cycleR_of_row (o := .prn) hs hb rfl fun _ _ => rfl

/-- Settles O23: the checks before the failing one have passed, so the fetch reaches it and gives its record;
CompatRetSP alone is raised by executing. -/
theorem firstFailingCheckGivesTheFault : Obligations.FirstFailingCheckGivesTheFault := by
  refine fun s hs => ⟨fun h0 => ?opcodePast, fun h0 hunknown => ?unknown, fun o h0 ho => ?row⟩
  case opcodePast => exact State.raisesFault_of_fetch hs (State.fetch_of_past h0)
  case unknown => exact State.raisesFault_of_fetch hs (State.fetch_of_unknown h0 hunknown)
  case row =>
    have hb := Opcode.ofByte?_eq_some_iff.mp ho
    rw [hb]
    refine ⟨fun hn h1 => ?onePast, fun hn h1 h2 => ?twoPast, fun hall => ?fetched⟩
    case onePast => exact State.raisesFault_of_row_past hs hb h0 (State.operandPastImage_of_past_one hn h1)
    case twoPast =>
      exact State.raisesFault_of_row_past hs hb h0 (hn ▸ State.operandPastImage_of_past_two h1 h2)
    case fetched =>
      have hp := State.operandPastImage_eq_none_iff.mpr hall
      refine ⟨fun hn h1 => ?oneBad, fun hf h1 h2 => ?twoBad, fun hret hc h7 => ?compatRetSP⟩
      case oneBad =>
        exact State.raisesFault_of_row_badRegister hs hb h0 hp (Opcode.assemble_of_invalid_one _ hn h1)
      case twoBad =>
        exact State.raisesFault_of_row_badRegister hs hb h0 hp (Opcode.assemble_of_invalid_two hf h1 h2)
      case compatRetSP =>
        subst hret
        have hop : s.instrByte 1 = 7 := h7
        have hstep := step_of_row hs hb h0 hp (hop ▸ Opcode.assemble_ret_sp hc _)
        exact ⟨_, hstep.trans (exec_ret_sp_eq s), s.faultedFrom_raiseFault _⟩

/-- Settles O24: a byte outside the thirteen is of no row, and the step is the fault entry. -/
theorem unknownOpcodeFaults : Obligations.UnknownOpcodeFaults := by
  intro s hs h0 hb
  have hf := State.fetch_of_unknown h0 (ofByte?_eq_none_iff.mpr hb)
  exact ⟨_, step_of_raises hs hf, s.faultedFrom_raiseFault _, step_raiseFault_ne_next s _⟩

/-- Settles O25: of the cases of `step_fault_cases` only the fault entry ends in Faulted. -/
theorem faultOnlyRecordsAndStops : Obligations.FaultOnlyRecordsAndStops := by
  intro s t h ht
  obtain ⟨hne, -⟩ | ⟨r, hpc, -, rfl⟩ := step_fault_cases h
  · exact absurd ht hne
  · exact ⟨r, hpc, s.faultedFrom_raiseFault r, rfl, step_raiseFault_ne_next s r⟩

/-- Settles O26: of the cases of `step_fault_cases` only the fault entry fills an empty record. -/
theorem aluSelectorErrorNeverRaised : Obligations.AluSelectorErrorNeverRaised := by
  intro s t r hnone h hr
  obtain ⟨-, hkept⟩ | ⟨r', -, hkind, rfl⟩ := step_fault_cases h
  · cases hr.symm.trans (hkept.trans hnone)
  · cases hr; exact hkind

end Sys2Proof.Claims
end

section
/-! PROOFS. Reset, Load, Run and the cycles of a run (spec/70_reset_and_hazards.md: R240, R244, R246, R247). -/

namespace Sys2Proof.Machine

/-! ### Load (R244) -/

/-- A Load accepted: when it is, and the state it leaves, which differs in memory, the image length and the
mark of Load alone. -/
theorem State.load_eq_ok_iff {s t : State} {bytes : List Byte} :
    s.load bytes = .ok t ↔ s.runState = .constructed ∧ s.loaded = false ∧ ∃ h : bytes.length < 257,
      t = { s with mem := (s.writeBytes 0 bytes).mem, imageLen := ⟨bytes.length, h⟩, loaded := true } := by
  constructor
  · intro hok
    unfold State.load at hok
    split at hok
    · cases hok
    rename_i hc
    split at hok
    · cases hok
    rename_i hl
    split at hok
    · rename_i hlen
      cases hok
      rw [State.writeBytes_eq]
      exact ⟨not_not.mp hc, Bool.eq_false_of_not_eq_true hl, hlen, rfl⟩
    · cases hok
  · rintro ⟨hc, hl, hlen, rfl⟩
    rw [State.load_eq_ok hc hl hlen, State.writeBytes_eq]

/-- A read after a Load: the image from address 0, and beyond it what was there (R244). -/
theorem State.readMem_of_load {s t : State} {bytes : List Byte} (h : s.load bytes = .ok t) (a : Byte) :
    t.readMem a = bytes.getD a.toNat (s.readMem a) := by
  obtain ⟨-, -, hlen, rfl⟩ := State.load_eq_ok_iff.mp h
  have hread := s.readMem_writeBytes 0 a (Nat.le_of_lt_succ hlen)
  rwa [sub_zero] at hread

/-! ### The cycles of a run (R246) -/

/-- Executing an instruction always leads to a next state (R83). -/
theorem exec_total (i : Instr) (s : State) : ∃ t, exec i s = .next t := by
  cases i with
  | ret operand =>
    cases operand with
    | none => exact ⟨_, exec_ret_none_eq s⟩
    | some r =>
      by_cases hr : r = 7
      · subst hr; exact ⟨_, exec_ret_sp_eq s⟩
      · exact ⟨_, exec_ret_some_eq hr s⟩
  | jeq r => exact ⟨_, exec_jeq_eq r s⟩
  | jne r => exact ⟨_, exec_jne_eq r s⟩
  | _ => exact ⟨_, rfl⟩

/-- A cycle is enabled in Running (R83). -/
theorem step_total {s : State} (hs : s.runState = .running) : ∃ t, step s = .next t := by
  cases hf : s.fetch with
  | instr i => rw [step_of_fetch hs hf]; exact exec_total i s
  | raises r => exact ⟨_, step_of_raises hs hf⟩

/-- A step does not lead to Constructed: it stays in Running or ends in Halted or Faulted (R29). -/
theorem step_runState_ne_constructed {s t : State} (h : step s = .next t) : t.runState ≠ .constructed := by
  obtain ⟨hrun, ⟨i, -, hex⟩ | ⟨r, -, rfl⟩⟩ := step_eq_next_iff.mp h
  · obtain ⟨-, -, ht⟩ | ⟨-, ht⟩ | ⟨-, ht⟩ := exec_runState_cases hex <;> simp [ht, hrun]
  · simp

@[simp] theorem State.cycles_zero (s : State) : s.cycles 0 = s := rfl

theorem State.cycles_succ_of_step {s t : State} (h : step s = .next t) (n : Nat) :
    s.cycles (n + 1) = t.cycles n := by
  simp [State.cycles, h]

/-- Outside Running no number of cycles leads anywhere (R83). -/
theorem State.cycles_of_ne_running {s : State} (h : s.runState ≠ .running) (n : Nat) : s.cycles n = s := by
  cases n with
  | zero => rfl
  | succ n =>
    rw [State.cycles]
    cases hst : step s with
    | next t => exact absurd hst (step_ne_next_of_ne_running h t)
    | fault | refused => rfl

/-- One more cycle is a cycle of the state reached. -/
theorem State.cycles_succ (s : State) (n : Nat) : s.cycles (n + 1) = (s.cycles n).cycles 1 := by
  induction n generalizing s with
  | zero => rfl
  | succ n ih =>
    by_cases hs : s.runState = .running
    · obtain ⟨t, ht⟩ := step_total hs
      rw [State.cycles_succ_of_step ht, State.cycles_succ_of_step ht, ih]
    · simp only [State.cycles_of_ne_running hs]

/-- What every step keeps holds after any number of cycles. -/
theorem State.cycles_invariant {P : State → Prop} (hstep : ∀ s t, P s → step s = .next t → P t) {s : State}
    (hs : P s) (n : Nat) : P (s.cycles n) := by
  induction n generalizing s with
  | zero => exact hs
  | succ n ih =>
    by_cases hrun : s.runState = .running
    · obtain ⟨t, ht⟩ := step_total hrun
      rw [State.cycles_succ_of_step ht]
      exact ih (hstep s t hs ht)
    · rwa [State.cycles_of_ne_running hrun]

end Sys2Proof.Machine

namespace Sys2Proof.Claims

open Sys2Proof.Machine

/-- Settles O45: `State.load_eq_ok_iff` says which Loads are accepted and what they leave, and
`State.readMem_of_load` what memory then holds. -/
theorem loadPlacesTheImage : Obligations.LoadPlacesTheImage := by
  refine fun s bytes => ⟨⟨fun ⟨t, ht⟩ => ?accepted, fun ⟨hc, hl, hlen⟩ => ?accepts⟩, fun t ht => ?effect⟩
  case accepted =>
    obtain ⟨hc, hl, hlen, -⟩ := State.load_eq_ok_iff.mp ht
    exact ⟨hc, hl, Nat.le_of_lt_succ hlen⟩
  case accepts => exact ⟨_, State.load_eq_ok hc hl (Nat.lt_succ_of_le hlen)⟩
  case effect =>
    refine ⟨fun a ha => ?inside, fun a ha => ?beyond, ?frame⟩
    case inside => rw [State.readMem_of_load ht, List.getD_eq_getElem _ _ ha]
    case beyond => rw [State.readMem_of_load ht, List.getD_eq_default _ _ ha]
    case frame =>
      obtain ⟨-, -, hlen, rfl⟩ := State.load_eq_ok_iff.mp ht
      exact ⟨rfl, rfl, State.regsKept_of_regs_eq rfl [], rfl, rfl, rfl, rfl, rfl, rfl⟩

/-- Settles O46: Run writes the run state alone, the cycle after `n` cycles is a step of the state reached, and
no step leads back to Constructed. -/
theorem runCyclesUntilHaltedOrFaulted : Obligations.RunCyclesUntilHaltedOrFaulted := by
  refine ⟨fun s hs => ?run, fun s n => ⟨fun hrun => ?goesOn, fun hrun => ?stops⟩, fun s n hs => ?noReturn⟩
  case run =>
    rw [State.startRun_of_constructed hs]
    exact ⟨rfl, rfl, rfl, rfl, rfl, rfl, rfl⟩
  case goesOn =>
    obtain ⟨t, ht⟩ := step_total hrun
    rw [State.cycles_succ, State.cycles_succ_of_step ht, State.cycles_zero, ht]
  case stops => rw [State.cycles_succ, State.cycles_of_ne_running hrun]
  case noReturn =>
    have hstart : s.runState ≠ .constructed := by simp [hs]
    exact State.cycles_invariant (P := fun u => u.runState ≠ .constructed)
      (fun _ _ _ hst => step_runState_ne_constructed hst) hstart n

/-- Settles O43: each part is read off the state after construction. -/
theorem resetState : Obligations.ResetState :=
  ⟨State.reset_readMem, by decide, rfl, rfl, rfl, rfl, rfl, rfl⟩

/-- Settles O47: no byte of an image of length 0 may be fetched, and under `execute` the byte fetched is the
0x00 of the reset memory, which is of no row. -/
theorem runWithoutLoadFaultsAtOnce : Obligations.RunWithoutLoadFaultsAtOnce := by
  refine ⟨fun s hs => State.startRun_of_ne_constructed hs, ?endOfImage, ?unknown⟩
  case endOfImage =>
    have hpast : ¬ State.reset.startRun.fetchable 0 := by decide
    exact State.raisesFault_of_fetch rfl (State.fetch_of_past hpast)
  case unknown =>
    have hzero : Opcode.ofByte? 0x00 = none := by decide
    exact State.raisesFault_of_fetch rfl (State.fetch_of_unknown (.inl rfl) hzero)

end Sys2Proof.Claims
end

section
/-! PROOFS. Decoding and encoding are inverse to each other, and a step runs what the bytes at `pc` decode to
(spec/30_encoding.md, sections 1, 2, 3 and 5). -/

namespace Sys2Proof

/-! ### From the instruction to its bytes -/

/-- The row of a well-formed instruction, assembled from the encoding's operand bytes and whatever follows, is
the instruction: a row whose format lacks a byte does not look at it (R79). -/
theorem Opcode.assemble_operandBytes {cfg : Config} {i : Instr} (h : i.wellFormed cfg = true)
    (rest : List Byte) :
    i.opcode.assemble cfg ((i.operandBytes ++ rest).getD 0 0) ((i.operandBytes ++ rest).getD 1 0) =
      .instr i := by
  cases i with
  | ret operand =>
    have hformat : operand.isSome = cfg.retWritesRegister := eq_of_beq h
    cases operand with
    | none => exact if_neg (Bool.eq_false_iff.mp hformat.symm)
    | some r => exact (if_pos hformat.symm).trans (withReg_regByte r _)
  | hlt => rfl
  | mul a b | add a b | cmp a b => exact (withReg_regByte a _).trans (withReg_regByte b _)
  | _ => exact withReg_regByte _ _

/-! ### From the bytes to the instruction -/

/-- The first `n` of the two operand bytes the decoder looks at are the first `n` bytes after the opcode. -/
theorem take_getD_pair {ops : List Byte} {n : Nat} (hn : n ≤ 2) (hlen : n ≤ ops.length) :
    [ops.getD 0 0, ops.getD 1 0].take n = ops.take n := by
  match ops, n with
  | _, 0 => rfl
  | _ :: _, 1 => rfl
  | _ :: _ :: _, 2 => rfl

end Sys2Proof

namespace Sys2Proof.Machine

/-- The bytes at `pc` decode to an instruction whose bytes may all be fetched: the fetch gives it (R80). -/
theorem State.fetch_of_decode {s : State} {i : Instr} {rest : List Byte}
    (h : decode s.config (s.instrBytes maxLength) = .instr i rest)
    (hf : ∀ k, k < i.length → s.fetchable (s.byteAddr k)) : s.fetch = .instr i := by
  have hbytes : s.instrBytes maxLength = [s.readMem s.pc, s.instrByte 1, s.instrByte 2] :=
    s.instrBytes_one_add le_rfl
  rw [hbytes] at h
  obtain ⟨o, ho, -, ha, -⟩ := decode_cons_eq_instr_iff.mp h
  obtain ⟨rfl, hwf, -⟩ := Opcode.assemble_eq_instr ha
  rw [Instr.length_of_wellFormed hwf] at hf
  have hpc : s.fetchable s.pc := s.byteAddr_zero ▸ hf 0 (by omega)
  exact State.fetch_eq_instr_iff.mpr ⟨hpc, i.opcode, ho, fun k _ hk => hf k (by omega), ha⟩

end Sys2Proof.Machine

namespace Sys2Proof.Claims

open Sys2Proof.Machine

/-- Settles O16: the first byte finds the instruction's row, and the row assembled from the operand bytes is the
instruction. -/
theorem decodeInvertsEncode : Obligations.DecodeInvertsEncode := by
  intro cfg i rest hwf
  have hlen : i.operandBytes.length = i.opcode.operandCount cfg := Instr.operandBytes_length hwf
  have hcons : encode i ++ rest = i.opcode.byte :: (i.operandBytes ++ rest) := rfl
  rw [hcons, decode_cons_eq_instr_iff]
  refine ⟨i.opcode, Opcode.ofByte?_byte _, ?enough, Opcode.assemble_operandBytes hwf rest, ?rest⟩
  case enough => rw [List.length_append, hlen]; exact Nat.le_add_right _ _
  case rest => rw [List.drop_left' hlen]

/-- Settles O17: the first byte is that of the row found, and the operand bytes of what is assembled are the
bytes consumed. -/
theorem decodedBytesAreTheEncoding : Obligations.DecodedBytesAreTheEncoding := by
  intro cfg bs rest i h
  cases bs with
  | nil => cases h
  | cons b ops =>
    obtain ⟨o, ho, hlen, ha, rfl⟩ := decode_cons_eq_instr_iff.mp h
    obtain ⟨rfl, hwf, hops⟩ := Opcode.assemble_eq_instr ha
    refine ⟨hwf, ?_⟩
    rw [encode, hops, take_getD_pair (Opcode.operandCount_le_two _ _) hlen, Opcode.byte_of_ofByte? ho,
      List.cons_append, List.take_append_drop]

/-- Settles O15: each word is decoded by evaluation. -/
theorem sampleWordsDecode : Obligations.SampleWordsDecode := by
  unfold Obligations.SampleWordsDecode
  decide

/-- Settles O20: the fetch gives what the bytes decode to, and the step executes what is fetched. -/
theorem stepRunsDecodedInstruction : Obligations.StepRunsDecodedInstruction :=
  fun _ _ _ hs hdecode hf => step_of_fetch hs (State.fetch_of_decode hdecode hf)

end Sys2Proof.Claims
end

section
/-! PROOFS. What every instruction keeps, and the invariant of the core: memory in its canonical form, a legal FL,
a fault record that agrees with the run state (spec/10_state.md, spec/20_memory.md R55, log entry 5). -/

namespace Sys2Proof

/-! ### Register operand bytes that name no register -/

/-- A bad register is reported by its byte, unless the register is good and what follows it is not. -/
theorem withReg_eq_badRegister {b v : Byte} {k : Reg → Assembled} (h : withReg b k = .badRegister v) :
    (b = v ∧ 8 ≤ b.toNat) ∨ ∃ r, k r = .badRegister v := by
  unfold withReg at h
  split at h
  · exact .inr ⟨_, h⟩
  · rename_i hnone
    cases h
    exact .inl ⟨rfl, regOfByte?_eq_none_iff.mp hnone⟩

/-- An operand byte reported as a bad register is 8 or more (R76). -/
theorem Opcode.le_toNat_of_assemble_eq_badRegister {cfg : Config} {o : Opcode} {op1 op2 v : Byte}
    (h : o.assemble cfg op1 op2 = .badRegister v) : 8 ≤ v.toNat := by
  have hone {b : Byte} {mk : Reg → Instr} (h : withReg b (fun r => .instr (mk r)) = .badRegister v) :
      8 ≤ v.toNat := by
    obtain ⟨rfl, hv⟩ | ⟨r, hr⟩ := withReg_eq_badRegister h
    · exact hv
    · cases hr
  cases o with
  | hlt => cases h
  | mul | add | cmp =>
    obtain ⟨rfl, hv⟩ | ⟨a, hb⟩ := withReg_eq_badRegister h
    · exact hv
    · exact hone hb
  | ret =>
    rw [Opcode.assemble] at h
    split at h
    · exact hone h
    · cases h
  | _ => exact hone h

end Sys2Proof

namespace Sys2Proof.Machine

/-! ### The canonical form of memory -/

/-- A cell of a memory with rising addresses is what its address reads as. -/
theorem Memory.read_of_mem {m : Memory} (h : m.Pairwise fun c d => c.1 < d.1) {c : Host.Cell} (hc : c ∈ m) :
    m.read c.1 = c.2 := by
  induction m with
  | nil => cases hc
  | cons d m ih =>
    obtain ⟨hd, hm⟩ := List.pairwise_cons.mp h
    obtain rfl | hc := List.mem_cons.mp hc
    · simp
    · rw [Memory.read_cons, if_neg (hd c hc).ne, ih hm hc]

/-- An address that does not read as an unlisted one has a cell. -/
theorem Memory.mem_of_read_ne {m : Memory} {a : Nat} (h : m.read a ≠ Memory.unlisted) : (a, m.read a) ∈ m := by
  induction m with
  | nil => exact absurd rfl h
  | cons d m ih =>
    rw [Memory.read_cons] at h ⊢
    split at h <;> rename_i hd
    · subst hd; simp
    · rw [if_neg hd]; exact List.mem_cons_of_mem d (ih h)

/-- The cells of a canonical memory are among those of any other that reads the same. -/
theorem Memory.mem_of_read_eq {m n : Memory} (hm : m.wf)
    (h : ∀ a : Byte, m.read a.toNat = n.read a.toNat) {c : Host.Cell} (hc : c ∈ m) : c ∈ n := by
  obtain ⟨hlt, hne⟩ := hm.2 c hc
  have hread : n.read c.1 = c.2 := by
    have hsame := h (BitVec.ofNat 8 c.1)
    rw [BitVec.toNat_ofNat, Nat.mod_eq_of_lt hlt] at hsame
    rw [← hsame, Memory.read_of_mem hm.1 hc]
  have hcell : (c.1, n.read c.1) ∈ n := Memory.mem_of_read_ne (by rwa [hread])
  rwa [hread] at hcell

/-! ### What every instruction keeps -/

/-- An instruction leaves memory as it is, or is a PUSH or CALL that writes the byte at the old SP less one. -/
theorem exec_mem_cases {i : Instr} {s t : State} (h : exec i s = .next t) :
    t.mem = s.mem ∨ (∃ r, i = .push r ∨ i = .call r) ∧ ∃ v, t.mem = (s.writeMem s.pushAddr v).mem := by
  cases i with
  | push r => cases h; exact .inr ⟨⟨r, .inl rfl⟩, _, rfl⟩
  | call r => cases h; exact .inr ⟨⟨r, .inr rfl⟩, _, rfl⟩
  | _ => exact .inl (exec_mem_of_ne_push_call h nofun nofun)

/-- An instruction leaves the output as it is, or is a PRN that appends its register's value. -/
theorem exec_out_cases {i : Instr} {s t : State} (h : exec i s = .next t) :
    t.out = s.out ∨ ∃ r, i = .prn r ∧ t.out = s.out ++ [s.readReg r] := by
  cases i with
  | prn r => cases h; exact .inr ⟨r, rfl, rfl⟩
  | ret operand => obtain ⟨-, rfl⟩ | ⟨r, -, -, rfl⟩ | ⟨-, rfl⟩ := exec_ret_cases h <;> exact .inl rfl
  | jeq r => obtain ⟨-, rfl⟩ | ⟨-, rfl⟩ := exec_jeq_cases h <;> exact .inl rfl
  | jne r => obtain ⟨-, rfl⟩ | ⟨-, rfl⟩ := exec_jne_cases h <;> exact .inl rfl
  | _ => cases h; exact .inl rfl

/-- No instruction writes the image length, the mark of Load or the parameters. -/
theorem exec_keeps_launch_state {i : Instr} {s t : State} (h : exec i s = .next t) :
    t.imageLen = s.imageLen ∧ t.loaded = s.loaded ∧ t.config = s.config := by
  cases i with
  | ret operand =>
    obtain ⟨-, rfl⟩ | ⟨r, -, -, rfl⟩ | ⟨-, rfl⟩ := exec_ret_cases h <;> exact ⟨rfl, rfl, rfl⟩
  | jeq r => obtain ⟨-, rfl⟩ | ⟨-, rfl⟩ := exec_jeq_cases h <;> exact ⟨rfl, rfl, rfl⟩
  | jne r => obtain ⟨-, rfl⟩ | ⟨-, rfl⟩ := exec_jne_cases h <;> exact ⟨rfl, rfl, rfl⟩
  | _ => cases h; exact ⟨rfl, rfl, rfl⟩

/-! ### The parts of the invariant -/

/-- A canonical memory stays canonical through an instruction (log entry 5). -/
theorem exec_mem_wf {i : Instr} {s t : State} (h : exec i s = .next t) (hwf : s.mem.wf) : t.mem.wf := by
  obtain hmem | ⟨-, v, hmem⟩ := exec_mem_cases h
  · rwa [hmem]
  · rw [hmem]; exact State.wf_writeMem hwf _ v

/-- The legality of FL is a matter of its value alone. -/
theorem State.flLegal_of_fl_eq {s t : State} (h : t.fl = s.fl) (hs : s.flLegal = true) : t.flLegal = true := by
  rw [State.flLegal, h]; exact hs

/-- A legal FL stays legal through an instruction: CMP writes one flag, the others write none (R28). -/
theorem exec_flLegal {i : Instr} {s t : State} (h : exec i s = .next t) (hs : s.flLegal = true) :
    t.flLegal = true := by
  cases i with
  | cmp a b =>
    cases (exec_cmp_eq a b s).symm.trans h
    obtain hfl | hfl | hfl := compareFlags_cases (s.readReg a) (s.readReg b) <;> simp [State.flLegal, hfl]
  | _ => exact State.flLegal_of_fl_eq (exec_fl_of_ne_cmp h nofun) hs

/-- Outside Faulted the record agrees exactly when it is empty (R31). -/
theorem State.faultAgrees_iff_of_ne_faulted {s : State} (h : s.runState ≠ .faulted) :
    s.faultAgrees = true ↔ s.faultRecord = none := by
  unfold State.faultAgrees
  cases s.faultRecord <;> simp [h]

/-- A fault raised at `pc` with a well-formed record leaves a record that agrees (R200). -/
theorem State.faultAgrees_raiseFault {s : State} {r : FaultRecord} (hpc : r.pc = s.pc) (hwf : r.wf = true) :
    (s.raiseFault r).faultAgrees = true := by
  simp [State.faultAgrees, hpc, hwf]

/-- A fault of the operands of a known opcode has a well-formed record (R203, R204). -/
theorem State.fetchOperands_raises_wf {s : State} {opc : Byte} {o o' : Opcode} {r : FaultRecord}
    (ho : Opcode.ofByte? opc = some o') (h : s.fetchOperands opc o = .raises r) : r.wf = true := by
  unfold State.fetchOperands at h
  split at h
  · cases h; simp [FaultRecord.wf, ho]
  · split at h <;> cases h
    rename_i ha
    simp [FaultRecord.wf, ho, Opcode.le_toNat_of_assemble_eq_badRegister ha]

/-- A fault of the fetch has a well-formed record (R202 to R204). -/
theorem State.fetch_raises_wf {s : State} {r : FaultRecord} (h : s.fetch = .raises r) : r.wf = true := by
  by_cases h0 : s.fetchable s.pc
  · obtain ⟨hnone, hf⟩ | ⟨o, -, hf⟩ := State.fetch_of_fetchable h0
    · cases hf.symm.trans h; simp [FaultRecord.wf, hnone]
    · exact State.fetchOperands_raises_wf (Opcode.ofByte?_byte o) (hf.symm.trans h)
  · cases (State.fetch_of_past h0).symm.trans h; simp [FaultRecord.wf]

/-- A record a step writes into an empty one is well formed (R201 to R205). -/
theorem step_faultRecord_wf {s t : State} {r : FaultRecord} (hnone : s.faultRecord = none)
    (h : step s = .next t) (hr : t.faultRecord = some r) : r.wf = true := by
  obtain ⟨-, ⟨i, -, hex⟩ | ⟨r', hf, rfl⟩⟩ := step_eq_next_iff.mp h
  · by_cases hi : i = .ret (some 7)
    · subst hi
      cases (exec_ret_sp_eq s).symm.trans hex
      cases hr; rfl
    · cases hr.symm.trans ((exec_faultRecord_of_ne_ret_sp hex hi).trans hnone)
  · cases hr; exact State.fetch_raises_wf hf

/-- A record that agrees goes on agreeing through a step: it is empty in Running, and a fault fills it (R200). -/
theorem step_faultAgrees {s t : State} (hs : s.faultAgrees = true) (h : step s = .next t) :
    t.faultAgrees = true := by
  obtain ⟨hrun, -⟩ := step_eq_next_iff.mp h
  have hnone : s.faultRecord = none :=
    (State.faultAgrees_iff_of_ne_faulted (by simp [hrun])).mp hs
  obtain ⟨hne, hkept⟩ | ⟨r, hpc, -, rfl⟩ := step_fault_cases h
  · exact (State.faultAgrees_iff_of_ne_faulted hne).mpr (hkept.trans hnone)
  · exact State.faultAgrees_raiseFault hpc (step_faultRecord_wf hnone h rfl)

end Sys2Proof.Machine

namespace Sys2Proof.Claims

open Sys2Proof.Machine

/-! ### What every instruction keeps -/

/-- Settles O33: `exec_out_cases` is the statement. -/
theorem onlyPrnChangesOutput : Obligations.OnlyPrnChangesOutput :=
  fun _ _ _ h => exec_out_cases h

/-- Settles O34: a byte that differs is not of a memory kept whole, and a store at the byte below SP is read
there alone. -/
theorem onlyPushAndCallStore : Obligations.OnlyPushAndCallStore := by
  intro i s t a h hne
  obtain hmem | ⟨hi, v, hmem⟩ := exec_mem_cases h
  · exact absurd (congrArg (Memory.read · a.toNat) hmem) hne
  · refine ⟨hi, ?_⟩
    by_contra ha
    have hread : t.readMem a = (s.writeMem s.pushAddr v).readMem a := congrArg (Memory.read · a.toNat) hmem
    exact hne (by rw [hread, State.readMem_writeMem, if_neg ha])

/-- Settles O36: neither an instruction nor a fault writes the three fields. -/
theorem stepKeepsLaunchState : Obligations.StepKeepsLaunchState := by
  intro s t h
  obtain ⟨-, ⟨i, -, hex⟩ | ⟨r, -, rfl⟩⟩ := step_eq_next_iff.mp h
  · exact exec_keeps_launch_state hex
  · exact ⟨rfl, rfl, rfl⟩

/-- Settles O22: a step that goes on is one in Running, and there it goes on whatever the fetch gives. -/
theorem cycleEnabledExactlyInRunning : Obligations.CycleEnabledExactlyInRunning :=
  ⟨fun _ => ⟨fun ⟨_, h⟩ => (step_eq_next_iff.mp h).1, step_total⟩, exec_total⟩

/-! ### The invariant -/

/-- Settles O35: the two have the same cells, and a list of cells by rising address is fixed by what it holds. -/
theorem canonicalMemoryIsUnique : Obligations.CanonicalMemoryIsUnique := by
  intro m n hm hn h
  have hcells : ∀ c, c ∈ m ↔ c ∈ n := fun c =>
    ⟨Memory.mem_of_read_eq hm h, Memory.mem_of_read_eq hn fun a => (h a).symm⟩
  exact List.Pairwise.eq_of_mem_iff (r := InvImage (· < ·) Prod.fst) hm.1 hn.1 hcells

/-- Settles O28: an instruction keeps memory canonical and FL legal, a fault writes neither, and the record is
empty until a fault fills it. -/
theorem stepKeepsInvariant : Obligations.StepKeepsInvariant := by
  rintro s t ⟨hmem, hfl, hfault⟩ h
  have hrecord : t.faultAgrees = true := step_faultAgrees hfault h
  obtain ⟨-, ⟨i, -, hex⟩ | ⟨r, -, rfl⟩⟩ := step_eq_next_iff.mp h
  · exact ⟨exec_mem_wf hex hmem, exec_flLegal hex hfl, hrecord⟩
  · exact ⟨hmem, hfl, hrecord⟩

/-- Settles O29: the memory of reset has no cells, FL is 0 and there is no record outside Faulted. -/
theorem resetMeetsInvariant : Obligations.ResetMeetsInvariant :=
  ⟨Memory.wf_nil, rfl, rfl⟩

/-- Settles O30: Run writes the run state alone, to another in which the record is empty, and Load's byte writes
keep memory canonical. -/
theorem loadAndRunKeepInvariant : Obligations.LoadAndRunKeepInvariant := by
  refine fun s hinv => ⟨?run, fun bytes t ht => ?load⟩
  case run =>
    by_cases hc : s.runState = .constructed
    · obtain ⟨hmem, hfl, hfault⟩ := hinv
      rw [State.startRun_of_constructed hc]
      have hnone : s.faultRecord = none :=
        (State.faultAgrees_iff_of_ne_faulted (by simp [hc])).mp hfault
      exact ⟨hmem, hfl, (State.faultAgrees_iff_of_ne_faulted (by simp)).mpr hnone⟩
    · rwa [State.startRun_of_ne_constructed hc]
  case load =>
    obtain ⟨hmem, hfl, hfault⟩ := hinv
    obtain ⟨-, -, -, rfl⟩ := State.load_eq_ok_iff.mp ht
    exact ⟨State.wf_writeBytes hmem 0 bytes, hfl, hfault⟩

end Sys2Proof.Claims
end

section
/-! PROOFS. What a run depends on (spec/70_reset_and_hazards.md R254), and a JMP to its own address
(spec/43_control.md R168). -/

namespace Sys2Proof.Machine

/-! ### The output and the mark of Load are not read -/

/-- The state with values put before its output and another mark of Load: a change of the two fields that no
cycle reads (R37, D21; log entry 3). -/
def State.withHistory (s : State) (before : List Byte) (loaded : Bool) : State :=
  { s with out := before ++ s.out, loaded := loaded }

/-- The state that has output nothing, with no mark of Load. -/
def State.withoutHistory (s : State) : State := { s with out := [], loaded := false }

theorem State.withHistory_fetch (s : State) (before : List Byte) (loaded : Bool) :
    (s.withHistory before loaded).fetch = s.fetch := rfl

theorem State.withHistory_flagE (s : State) (before : List Byte) (loaded : Bool) :
    (s.withHistory before loaded).flagE = s.flagE := rfl

/-- PRN appends after whatever the output held. -/
theorem State.withHistory_emit (s : State) (before : List Byte) (loaded : Bool) (v : Byte) :
    (s.withHistory before loaded).emit v = (s.emit v).withHistory before loaded := by
  simp [State.withHistory, State.emit]

/-- A state is its own history put before the state that has output nothing. -/
theorem State.withoutHistory_withHistory (s : State) : s.withoutHistory.withHistory s.out s.loaded = s := by
  simp [State.withHistory, State.withoutHistory]

/-- States equal in all but the output and the mark of Load are one state with two histories. -/
theorem State.eq_withoutHistory_withHistory {s s' : State} (hrun : s.runState = s'.runState)
    (hview : s.programView = s'.programView) (hlen : s.imageLen = s'.imageLen)
    (hconfig : s.config = s'.config) (hrecord : s.faultRecord = s'.faultRecord) :
    s' = s.withoutHistory.withHistory s'.out s'.loaded := by
  obtain ⟨hregs, hpc, hfl, hmem⟩ : s.regs = s'.regs ∧ s.pc = s'.pc ∧ s.fl = s'.fl ∧ s.mem = s'.mem := by
    simpa [State.programView] using hview
  have hsame : s.withoutHistory = s'.withoutHistory := by
    simp only [State.withoutHistory, hregs, hpc, hfl, hmem, hrun, hlen, hconfig, hrecord]
  rw [hsame, State.withoutHistory_withHistory]

/-- Executing an instruction carries the history through. -/
theorem exec_withHistory {i : Instr} {s t : State} (h : exec i s = .next t) (before : List Byte)
    (loaded : Bool) : exec i (s.withHistory before loaded) = .next (t.withHistory before loaded) := by
  cases i with
  | prn r =>
    cases h
    exact congrArg (fun u : State => Host.Outcome.next (u.advance 2))
      (s.withHistory_emit before loaded (s.readReg r))
  | ret operand =>
    obtain ⟨rfl, rfl⟩ | ⟨r, rfl, hr, rfl⟩ | ⟨rfl, rfl⟩ := exec_ret_cases h
    · rfl
    · exact exec_ret_some_eq hr _
    · rfl
  | jeq r =>
    obtain ⟨hE, rfl⟩ | ⟨hE, rfl⟩ := exec_jeq_cases h <;>
      simp only [exec, execJeq, State.withHistory_flagE, hE] <;> rfl
  | jne r =>
    obtain ⟨hE, rfl⟩ | ⟨hE, rfl⟩ := exec_jne_cases h <;>
      simp only [exec, execJne, State.withHistory_flagE, hE] <;> rfl
  | _ => cases h; rfl

/-- A cycle carries the history through. -/
theorem step_withHistory {s t : State} (h : step s = .next t) (before : List Byte) (loaded : Bool) :
    step (s.withHistory before loaded) = .next (t.withHistory before loaded) := by
  obtain ⟨hs, hcases⟩ := step_eq_next_iff.mp h
  have hrun : (s.withHistory before loaded).runState = .running := hs
  have hfetch := s.withHistory_fetch before loaded
  obtain ⟨i, hf, hex⟩ | ⟨r, hf, rfl⟩ := hcases
  · exact (step_of_fetch hrun (hfetch.trans hf)).trans (exec_withHistory hex before loaded)
  · exact step_of_raises hrun (hfetch.trans hf)

/-- Any number of cycles carries the history through. -/
theorem State.cycles_withHistory (s : State) (before : List Byte) (loaded : Bool) (n : Nat) :
    (s.withHistory before loaded).cycles n = (s.cycles n).withHistory before loaded := by
  induction n generalizing s with
  | zero => rfl
  | succ n ih =>
    by_cases hrun : s.runState = .running
    · obtain ⟨t, ht⟩ := step_total hrun
      rw [State.cycles_succ_of_step ht, State.cycles_succ_of_step (step_withHistory ht before loaded), ih]
    · rw [State.cycles_of_ne_running (s := s.withHistory before loaded) hrun, State.cycles_of_ne_running hrun]

/-! ### A step that leads back -/

/-- A state that steps to itself is the state after any number of cycles. -/
theorem State.cycles_of_step_self {s : State} (h : step s = .next s) (n : Nat) : s.cycles n = s := by
  induction n with
  | zero => rfl
  | succ n ih => rw [State.cycles_succ_of_step h, ih]

end Sys2Proof.Machine

namespace Sys2Proof.Claims

open Sys2Proof.Machine

/-- Settles O37: the two are one state with two histories, which the cycles carry through; the values output are
those of that state run from an empty output. -/
theorem runDependsOnlyOnProgramView : Obligations.RunDependsOnlyOnProgramView := by
  intro n s s' hs hs' hview hlen hconfig hrecord
  have hrun : s.cycles n = (s.withoutHistory.cycles n).withHistory s.out s.loaded := by
    rw [← State.cycles_withHistory, State.withoutHistory_withHistory]
  have hrun' : s'.cycles n = (s.withoutHistory.cycles n).withHistory s'.out s'.loaded := by
    rw [← State.cycles_withHistory,
      ← State.eq_withoutHistory_withHistory (hs.trans hs'.symm) hview hlen hconfig hrecord]
  rw [hrun, hrun']
  exact ⟨rfl, rfl, rfl, (s.withoutHistory.cycles n).out, rfl, rfl⟩

/-- Settles O42: the cycle of JMP writes to `pc` the value it holds, and a step to the same state repeats. -/
theorem selfJumpRunsForever : Obligations.SelfJumpRunsForever := by
  intro r s hs h0 h1 hopcode hoperand htarget
  obtain ⟨-, -, hcycle⟩ := jmpSetsProgramCounter
  obtain ⟨-, -, hfetched⟩ := hcycle s hs hopcode
  obtain ⟨-, hruns⟩ := hfetched h0 h1
  have hreg : (s.readMem (s.pc + 1)).toNat = r.val := by rw [hoperand]; exact regByte_toNat r
  have hstep : step s = .next s := by rw [hruns r hreg, exec_jmp_eq, htarget, State.setPc_pc_self]
  exact ⟨hstep, State.cycles_of_step_self hstep⟩

end Sys2Proof.Claims
end
